-- ==== Sys2Proof/Word.lean ====
section
/-! DEFINITION. The core's word types (spec/00_scope.md R10, R11): every register, byte and field is unsigned,
bit 0 is the least significant. -/

namespace Sys2Proof

/-- A byte: a V register, a timer, one memory cell (R7 REG_WIDTH, TIMER_WIDTH). -/
abbrev Byte := BitVec 8

/-- A 16-bit word: an instruction, I, pc, a stack entry (R7 I_WIDTH, PC_WIDTH; R70). -/
abbrev Word := BitVec 16

/-- A register number, the 4-bit field X or Y (R22, R70). -/
abbrev Reg := BitVec 4

/-- VF is V[15], the flag output (spec/10_state.md R23). -/
abbrev Reg.flag : Reg := 0xF#4

end Sys2Proof
end

