-- ==== Sys2Proof/Config.lean ====
section
/-! DEFINITION. What is fixed for this hardware (spec/00_scope.md R7) and the values the spec leaves free.
The two parameters whose value the spec decides against its source (STACK_DEPTH, FONT) stand in Machine/Params.lean. -/

namespace Sys2Proof.Config

/-- MEM_SIZE: bytes of the one memory (R7). -/
def memSize : Nat := 0x1000

/-- ADDR_MAX: the highest valid address (R7). -/
def addrMax : Nat := 0xFFF

/-- PROG_BASE: load address of the image, reset pc, lowest address an instruction may write (R7, R56). -/
def progBase : Nat := 0x200

/-- PROG_MAX: the largest accepted image, in bytes (R7, R261). -/
def progMax : Nat := 0xE00

/-- FONT_SIZE: bytes of the font table at address 0 (R7, R35). -/
def fontSize : Nat := 80

/-- DISP_W: display width in pixels (R7). -/
def dispW : Nat := 64

/-- DISP_H: display height in pixels (R7). -/
def dispH : Nat := 32

/-- NKEYS: entries of the keypad latch (R7, R33). -/
def nKeys : Nat := 16

/-- The random byte of the n-th draw of CXNN (spec/41_register_alu.md R151; D26, U12). A FREE VALUE: no body, so a
claim holds for every byte. DESIGN CHOICE (log entry 2), safe. -/
opaque freeByte : Nat → Byte

/-- The choice FX0A makes at its n-th key when several keys are pressed (spec/44_keypad_timer_ops.md R204; D11, U11).
A FREE VALUE, reduced to an index of the pressed keys. DESIGN CHOICE (log entry 3), safe. -/
opaque freeKeyPick : Nat → Nat

/-- TICK_HZ: OPEN, the frame and tick rate; no rule of the core reads it (spec/60_exceptions.md R237). -/
opaque tickHz : Nat

end Sys2Proof.Config
end

