-- ==== Sys2Proof/Syntax.lean ====
section
/-! DEFINITION. The instruction set: one constructor per row of spec/opcode_table.json, in the table's order
(spec/30_encoding.md R72 to R74). An operand is held as its instruction uses it (R71): a register number as its
4-bit field, NN as a byte, NNN as the 16-bit word written to I or pc, N as a row count. -/

namespace Sys2Proof

inductive Instr where
  /-- 00E0 CLS: clear the display (R181). -/
  | cls
  /-- 00EE RET: return from subroutine (R101). -/
  | ret
  /-- 1NNN JP nnn: jump (R102). -/
  | jp (nnn : Word)
  /-- 2NNN CALL nnn: call subroutine (R103). -/
  | call (nnn : Word)
  /-- 3XNN SE Vx, kk: skip if equal to immediate (R104). -/
  | seImm (x : Reg) (nn : Byte)
  /-- 4XNN SNE Vx, kk: skip if not equal to immediate (R105). -/
  | sneImm (x : Reg) (nn : Byte)
  /-- 5XY0 SE Vx, Vy: skip if registers equal (R106). -/
  | seReg (x y : Reg)
  /-- 6XNN LD Vx, kk: load immediate (R131). -/
  | ldImm (x : Reg) (nn : Byte)
  /-- 7XNN ADD Vx, kk: add immediate without carry (R132). -/
  | addImm (x : Reg) (nn : Byte)
  /-- 8XY0 LD Vx, Vy: copy register (R133). -/
  | ldReg (x y : Reg)
  /-- 8XY1 OR Vx, Vy (R134). -/
  | orReg (x y : Reg)
  /-- 8XY2 AND Vx, Vy (R135). -/
  | andReg (x y : Reg)
  /-- 8XY3 XOR Vx, Vy (R136). -/
  | xorReg (x y : Reg)
  /-- 8XY4 ADD Vx, Vy: add with carry out (R137). -/
  | addReg (x y : Reg)
  /-- 8XY5 SUB Vx, Vy: subtract, flag = no borrow (R138). -/
  | sub (x y : Reg)
  /-- 8XY6 SHR Vx, Vy: shift right by one; Y plays no part (R139). -/
  | shr (x y : Reg)
  /-- 8XY7 SUBN Vx, Vy: reverse subtract, flag = no borrow (R140). -/
  | subn (x y : Reg)
  /-- 8XYE SHL Vx, Vy: shift left by one; Y plays no part (R141). -/
  | shl (x y : Reg)
  /-- 9XY0 SNE Vx, Vy: skip if registers differ (R107). -/
  | sneReg (x y : Reg)
  /-- ANNN LD I, nnn: load index register (R161). -/
  | ldI (nnn : Word)
  /-- BNNN JP V0, nnn: jump with offset (R108). -/
  | jpV0 (nnn : Word)
  /-- CXNN RND Vx, kk: random byte masked by an immediate (R151). -/
  | rnd (x : Reg) (nn : Byte)
  /-- DXYN DRW Vx, Vy, n: draw an n-row sprite (R182). -/
  | drw (x y : Reg) (n : Nat)
  /-- EX9E SKP Vx: skip if key V[X] is pressed (R201). -/
  | skp (x : Reg)
  /-- EXA1 SKNP Vx: skip if key V[X] is not pressed (R202). -/
  | sknp (x : Reg)
  /-- FX07 LD Vx, DT: read the delay timer (R203). -/
  | ldVxDt (x : Reg)
  /-- FX0A LD Vx, K: wait for a key (R204). -/
  | ldVxK (x : Reg)
  /-- FX15 LD DT, Vx: set the delay timer (R205). -/
  | ldDtVx (x : Reg)
  /-- FX18 LD ST, Vx: set the sound timer (R206). -/
  | ldStVx (x : Reg)
  /-- FX1E ADD I, Vx: add register to index (R162). -/
  | addI (x : Reg)
  /-- FX29 LD F, Vx: point I at a font glyph (R163). -/
  | ldF (x : Reg)
  /-- FX33 LD B, Vx: store binary-coded decimal (R164). -/
  | ldB (x : Reg)
  /-- FX55 LD [I], Vx: store registers V0 to VX (R165). -/
  | stRegs (x : Reg)
  /-- FX65 LD Vx, [I]: load registers V0 to VX (R166). -/
  | ldRegs (x : Reg)
  deriving DecidableEq, Repr

end Sys2Proof
end

