-- ==== Sys2Proof/WellFormed.lean ====
section
/-! DEFINITION. Which instructions an encoding can carry (spec/30_encoding.md R70, R71): NNN is a 12-bit immediate
and N a 4-bit one. Every register number and every NN is encodable, so nothing is checked of them. -/

namespace Sys2Proof

/-- NNN fits its field bits[11:0]. -/
def fitsNNN (nnn : Word) : Bool := decide (nnn.toNat ≤ 0xFFF)

/-- N fits its field bits[3:0]: a row count 0 to 15. -/
def fitsN (n : Nat) : Bool := decide (n ≤ 15)

/-- The instruction's operands fit their fields. -/
def Instr.wellFormed : Instr → Bool
  | .jp nnn | .call nnn | .ldI nnn | .jpV0 nnn => fitsNNN nnn
  | .drw _ _ n => fitsN n
  | .cls | .ret => true
  | .seImm _ _ | .sneImm _ _ | .ldImm _ _ | .addImm _ _ | .rnd _ _ => true
  | .seReg _ _ | .sneReg _ _ | .ldReg _ _ | .orReg _ _ | .andReg _ _ | .xorReg _ _ => true
  | .addReg _ _ | .sub _ _ | .shr _ _ | .subn _ _ | .shl _ _ => true
  | .skp _ | .sknp _ | .ldVxDt _ | .ldVxK _ | .ldDtVx _ | .ldStVx _ => true
  | .addI _ | .ldF _ | .ldB _ | .stRegs _ | .ldRegs _ => true

end Sys2Proof
end

