-- ==== Sys2Proof/Decode.lean ====
section
/-! DEFINITION. Decoding and encoding (spec/30_encoding.md): the fields of a word (R70), the opcode map as a table of
mask, match and operand extraction (R73), the strict and total decoder that reads it (R75, R79, R83), the big-endian
bytes of an instruction (R52), and the encoder written from the same patterns. -/

namespace Sys2Proof

/-! ### Fields of a word (R70) -/

/-- X = bits[11:8]. -/
def fieldX (w : Word) : Reg := w.extractLsb' 8 4

/-- Y = bits[7:4]. -/
def fieldY (w : Word) : Reg := w.extractLsb' 4 4

/-- N = bits[3:0], as a row count (R71). -/
def fieldN (w : Word) : Nat := (w.extractLsb' 0 4).toNat

/-- NN = bits[7:0]. -/
def fieldNN (w : Word) : Byte := w.extractLsb' 0 8

/-- NNN = bits[11:0], zero-extended to 16 bits (R71). -/
def fieldNNN (w : Word) : Word := (w.extractLsb' 0 12).setWidth 16

/-! ### The opcode map (R73) -/

/-- One row of the opcode map: its mnemonic in spec/opcode_table.json, its mask and match, and the instruction built
from the fields of a word it selects. -/
structure OpcodeRow where
  mnemonic : String
  mask : Word
  pattern : Word
  build : Word → Instr

/-- "a word w selects the instruction when w & mask == match" (R73). -/
def OpcodeRow.selects (r : OpcodeRow) (w : Word) : Bool := w &&& r.mask == r.pattern

/-- The rows of families 0 to 7 (R73). -/
def rowsLow : List OpcodeRow := [
  ⟨"CLS", 0xFFFF#16, 0x00E0#16, fun _ => .cls⟩,
  ⟨"RET", 0xFFFF#16, 0x00EE#16, fun _ => .ret⟩,
  ⟨"JP", 0xF000#16, 0x1000#16, fun w => .jp (fieldNNN w)⟩,
  ⟨"CALL", 0xF000#16, 0x2000#16, fun w => .call (fieldNNN w)⟩,
  ⟨"SE_IMM", 0xF000#16, 0x3000#16, fun w => .seImm (fieldX w) (fieldNN w)⟩,
  ⟨"SNE_IMM", 0xF000#16, 0x4000#16, fun w => .sneImm (fieldX w) (fieldNN w)⟩,
  ⟨"SE_REG", 0xF00F#16, 0x5000#16, fun w => .seReg (fieldX w) (fieldY w)⟩,
  ⟨"LD_IMM", 0xF000#16, 0x6000#16, fun w => .ldImm (fieldX w) (fieldNN w)⟩,
  ⟨"ADD_IMM", 0xF000#16, 0x7000#16, fun w => .addImm (fieldX w) (fieldNN w)⟩]

/-- The rows of family 8 (R73). -/
def rowsAlu : List OpcodeRow := [
  ⟨"LD_REG", 0xF00F#16, 0x8000#16, fun w => .ldReg (fieldX w) (fieldY w)⟩,
  ⟨"OR", 0xF00F#16, 0x8001#16, fun w => .orReg (fieldX w) (fieldY w)⟩,
  ⟨"AND", 0xF00F#16, 0x8002#16, fun w => .andReg (fieldX w) (fieldY w)⟩,
  ⟨"XOR", 0xF00F#16, 0x8003#16, fun w => .xorReg (fieldX w) (fieldY w)⟩,
  ⟨"ADD_REG", 0xF00F#16, 0x8004#16, fun w => .addReg (fieldX w) (fieldY w)⟩,
  ⟨"SUB", 0xF00F#16, 0x8005#16, fun w => .sub (fieldX w) (fieldY w)⟩,
  ⟨"SHR", 0xF00F#16, 0x8006#16, fun w => .shr (fieldX w) (fieldY w)⟩,
  ⟨"SUBN", 0xF00F#16, 0x8007#16, fun w => .subn (fieldX w) (fieldY w)⟩,
  ⟨"SHL", 0xF00F#16, 0x800E#16, fun w => .shl (fieldX w) (fieldY w)⟩]

/-- The rows of families 9 to E (R73). -/
def rowsMid : List OpcodeRow := [
  ⟨"SNE_REG", 0xF00F#16, 0x9000#16, fun w => .sneReg (fieldX w) (fieldY w)⟩,
  ⟨"LD_I", 0xF000#16, 0xA000#16, fun w => .ldI (fieldNNN w)⟩,
  ⟨"JP_V0", 0xF000#16, 0xB000#16, fun w => .jpV0 (fieldNNN w)⟩,
  ⟨"RND", 0xF000#16, 0xC000#16, fun w => .rnd (fieldX w) (fieldNN w)⟩,
  ⟨"DRW", 0xF000#16, 0xD000#16, fun w => .drw (fieldX w) (fieldY w) (fieldN w)⟩,
  ⟨"SKP", 0xF0FF#16, 0xE09E#16, fun w => .skp (fieldX w)⟩,
  ⟨"SKNP", 0xF0FF#16, 0xE0A1#16, fun w => .sknp (fieldX w)⟩]

/-- The rows of family F (R73). -/
def rowsF : List OpcodeRow := [
  ⟨"LD_VX_DT", 0xF0FF#16, 0xF007#16, fun w => .ldVxDt (fieldX w)⟩,
  ⟨"LD_VX_K", 0xF0FF#16, 0xF00A#16, fun w => .ldVxK (fieldX w)⟩,
  ⟨"LD_DT_VX", 0xF0FF#16, 0xF015#16, fun w => .ldDtVx (fieldX w)⟩,
  ⟨"LD_ST_VX", 0xF0FF#16, 0xF018#16, fun w => .ldStVx (fieldX w)⟩,
  ⟨"ADD_I", 0xF0FF#16, 0xF01E#16, fun w => .addI (fieldX w)⟩,
  ⟨"LD_F", 0xF0FF#16, 0xF029#16, fun w => .ldF (fieldX w)⟩,
  ⟨"LD_B", 0xF0FF#16, 0xF033#16, fun w => .ldB (fieldX w)⟩,
  ⟨"ST_REGS", 0xF0FF#16, 0xF055#16, fun w => .stRegs (fieldX w)⟩,
  ⟨"LD_REGS", 0xF0FF#16, 0xF065#16, fun w => .ldRegs (fieldX w)⟩]

/-- The opcode map of R73, 34 rows (R74). -/
def opcodeRows : List OpcodeRow := rowsLow ++ rowsAlu ++ rowsMid ++ rowsF

/-! ### The decoder (R79, R83) -/

/-- Why bytes give no instruction. -/
inductive DecodeError where
  /-- The word is in the unknown-opcode space of R76; a step runs it as a no-op (R84). -/
  | unknownOpcode (w : Word)
  /-- Fewer than two bytes. -/
  | truncated
  deriving DecidableEq, Repr

/-- decode(opcode): the row whose mask and match select the word, with its fields, or Unknown (R83). -/
def decodeWord (w : Word) : Except DecodeError Instr :=
  match opcodeRows.find? (·.selects w) with
  | some r => .ok (r.build w)
  | none => .error (.unknownOpcode w)

/-- The word of two bytes: the high byte stands first (R52). -/
def wordOfBytes (hi lo : Byte) : Word := BitVec.ofNat 16 (hi.toNat * 256 + lo.toNat)

/-- The high byte of a word, at the lower address (R52). -/
def highByte (w : Word) : Byte := w.extractLsb' 8 8

/-- The low byte of a word, at the higher address (R52). -/
def lowByte (w : Word) : Byte := w.extractLsb' 0 8

/-- Decode the first instruction of a byte sequence and give the bytes after it (R70, R78). -/
def decode : List Byte → Except DecodeError (Instr × List Byte)
  | hi :: lo :: rest =>
    match decodeWord (wordOfBytes hi lo) with
    | .ok i => .ok (i, rest)
    | .error e => .error e
  | _ => .error .truncated

/-- The bytes, in address order, of an instruction whose bits are w numbered as spec/opcode_table.json numbers them:
one word, its bits above nbits zero. -/
def tableBytes (nbits w : Nat) : List Byte :=
  let word : Word := BitVec.ofNat 16 (w % 2 ^ nbits)
  [highByte word, lowByte word]

/-- The instruction the decoder reads from the table-numbered bits w. -/
def decodeTableWord (nbits w : Nat) : Option Instr :=
  match decode (tableBytes nbits w) with
  | .ok (i, _) => some i
  | .error _ => none

/-! ### The encoder (R72, R73) -/

/-- Pattern oNNN. -/
def wordNNN (op : Nat) (nnn : Word) : Word := BitVec.ofNat 16 (op * 4096 + nnn.toNat)

/-- Pattern oXNN, also EXnn and FXnn with nn literal. -/
def wordXNN (op : Nat) (x : Reg) (nn : Byte) : Word := BitVec.ofNat 16 (op * 4096 + x.toNat * 256 + nn.toNat)

/-- Pattern oXYn, also DXYN. -/
def wordXYN (op : Nat) (x y : Reg) (n : Nat) : Word := BitVec.ofNat 16 (op * 4096 + x.toNat * 256 + y.toNat * 16 + n)

/-- The word of an instruction; an instruction that is not well formed has none that decodes to it. Y is 0 nowhere by
force: 8XY6 and 8XYE keep theirs, though they ignore it (R72). -/
def encode : Instr → Word
  | .cls => 0x00E0
  | .ret => 0x00EE
  | .jp nnn => wordNNN 0x1 nnn
  | .call nnn => wordNNN 0x2 nnn
  | .seImm x nn => wordXNN 0x3 x nn
  | .sneImm x nn => wordXNN 0x4 x nn
  | .seReg x y => wordXYN 0x5 x y 0x0
  | .ldImm x nn => wordXNN 0x6 x nn
  | .addImm x nn => wordXNN 0x7 x nn
  | .ldReg x y => wordXYN 0x8 x y 0x0
  | .orReg x y => wordXYN 0x8 x y 0x1
  | .andReg x y => wordXYN 0x8 x y 0x2
  | .xorReg x y => wordXYN 0x8 x y 0x3
  | .addReg x y => wordXYN 0x8 x y 0x4
  | .sub x y => wordXYN 0x8 x y 0x5
  | .shr x y => wordXYN 0x8 x y 0x6
  | .subn x y => wordXYN 0x8 x y 0x7
  | .shl x y => wordXYN 0x8 x y 0xE
  | .sneReg x y => wordXYN 0x9 x y 0x0
  | .ldI nnn => wordNNN 0xA nnn
  | .jpV0 nnn => wordNNN 0xB nnn
  | .rnd x nn => wordXNN 0xC x nn
  | .drw x y n => wordXYN 0xD x y n
  | .skp x => wordXNN 0xE x 0x9E
  | .sknp x => wordXNN 0xE x 0xA1
  | .ldVxDt x => wordXNN 0xF x 0x07
  | .ldVxK x => wordXNN 0xF x 0x0A
  | .ldDtVx x => wordXNN 0xF x 0x15
  | .ldStVx x => wordXNN 0xF x 0x18
  | .addI x => wordXNN 0xF x 0x1E
  | .ldF x => wordXNN 0xF x 0x29
  | .ldB x => wordXNN 0xF x 0x33
  | .stRegs x => wordXNN 0xF x 0x55
  | .ldRegs x => wordXNN 0xF x 0x65

/-- The bytes of an instruction in address order (R52). -/
def encodeBytes (i : Instr) : List Byte := [highByte (encode i), lowByte (encode i)]

end Sys2Proof
end

