-- ==== Sys2Proof/Machine/Params.lean ====
section
/-! DEFINITION. The two parameters of spec/00_scope.md R7 whose value the spec decides where its source is silent or
says otherwise: STACK_DEPTH and FONT. -/

namespace Sys2Proof.Machine

/-- STACK_DEPTH: capacity of the call stack, 16 (R7, R28; spec/90_conflicts.md C5). -/
def stackDepth : Nat := 16

/-- FONT: the 80 bytes of the font table, glyph d at 5 * d, top row first; the default of spec/10_state.md R35.
PRESUMED (log entry 5): the spec supplies these bytes from outside its source. -/
def font : List Byte :=
  [0xF0, 0x90, 0x90, 0x90, 0xF0,  0x20, 0x60, 0x20, 0x20, 0x70,  0xF0, 0x10, 0xF0, 0x80, 0xF0,
   0xF0, 0x10, 0xF0, 0x10, 0xF0,  0x90, 0x90, 0xF0, 0x10, 0x10,  0xF0, 0x80, 0xF0, 0x10, 0xF0] ++
  [0xF0, 0x80, 0xF0, 0x90, 0xF0,  0xF0, 0x10, 0x20, 0x40, 0x40,  0xF0, 0x90, 0xF0, 0x90, 0xF0,
   0xF0, 0x90, 0xF0, 0x10, 0xF0,  0xF0, 0x90, 0xF0, 0x90, 0x90,  0xE0, 0x90, 0xE0, 0x90, 0xE0] ++
  [0xF0, 0x80, 0x80, 0x80, 0xF0,  0xE0, 0x90, 0x90, 0x90, 0xE0,  0xF0, 0x80, 0xF0, 0x80, 0xF0,
   0xF0, 0x80, 0xF0, 0x80, 0x80]

end Sys2Proof.Machine
end

