-- ==== Sys2Proof/Machine/State.lean ====
section
/-! DEFINITION. The architectural state (spec/10_state.md R20: "exactly the following"), as plain data, and the state
after a successful initialize with an empty image (spec/70_reset_and_hazards.md R260). -/

namespace Sys2Proof.Machine

/-- The memory as (address, byte) pairs in one canonical form, `Memory.wf` of Machine/Ops.lean. -/
abbrev Memory := List Host.Cell

/-- The display buffer, 32 rows of 64 pixels, top to bottom and left to right (R32). -/
abbrev Display := Vector (Vector Bool 64) 32

/-- The 16 levels of the keypad latch, true when pressed (R33). -/
abbrev KeyLevels := Vector Bool 16

/-- RunState (spec/60_exceptions.md R220). The cause of Faulted is in FaultRec. -/
inductive RunState where
  | running
  | paused
  | haltedQuit
  | faulted
  deriving DecidableEq, Repr

/-- The seven fault causes (R223), in the order of their codes 1 to 7. -/
inductive FaultCause where
  /-- 2NNN with STACK_DEPTH entries on the stack. -/
  | stackOverflow
  /-- 00EE with an empty stack. -/
  | stackUnderflow
  /-- A fetch of a byte above 0xFFF. -/
  | memoryFetch
  /-- DXYN or FX65 reading a byte above 0xFFF. -/
  | memoryRead
  /-- FX33 or FX55 writing a byte above 0xFFF. -/
  | memoryWrite
  /-- FX33 or FX55 writing a byte below 0x200. -/
  | lowMemoryWrite
  /-- EX9E or EXA1 with V[X] above 0xF. -/
  | keyIndex
  deriving DecidableEq, Repr

/-- FaultRec (R36, R222): cause, the address of the faulting instruction, its word (none for a fetch fault), info. -/
structure FaultRecord where
  cause : FaultCause
  pc : Word
  opcode : Option Word
  info : Word
  deriving DecidableEq, Repr

/-- The core's state (R20). The last two fields are the model's own: they index the free values of CXNN and FX0A. -/
structure State where
  /-- V[0..15] (R22). -/
  v : Vector Byte 16
  /-- I (R26). -/
  i : Word
  /-- pc, a byte address (R27). -/
  pc : Word
  /-- Stack, oldest entry first; SP is its length (R28). -/
  stack : List Word
  /-- DT (R31). -/
  dt : Byte
  /-- ST (R31). -/
  st : Byte
  /-- Mem (R34). -/
  mem : Memory
  /-- Disp[y][x] (R32). -/
  disp : Display
  /-- Key[k] (R33). -/
  keys : KeyLevels
  /-- RunState (R36). -/
  runState : RunState
  /-- FaultRec, none when no fault is recorded (R36). -/
  faultRec : Option FaultRecord
  /-- KeyWait (R37). -/
  keyWait : Bool
  /-- The model's own: random bytes drawn so far. DESIGN CHOICE, log entries 2 and 4. -/
  rndDraws : Nat
  /-- The model's own: keys taken by FX0A so far. DESIGN CHOICE, log entries 3 and 4. -/
  keyPicks : Nat
  deriving DecidableEq, Repr

/-- The reasons a step of the MODEL could stop without a next state: there are none, so this closed inductive has no
constructor. Every fault of the spec leaves a state the spec describes (R222), and the model takes it as a next state
(log entry 1; safe: nothing is left unmodelled behind it). -/
inductive Fault : Type
  deriving DecidableEq, Repr

/-- Why an instruction has no meaning in the model. -/
inductive Refusal where
  /-- Raised by an arm of `exec` whose instruction has no meaning yet, by its mnemonic; no arm does. Safe: it stops. -/
  | notModelled (mnemonic : String)
  deriving DecidableEq, Repr

/-- The state after a successful initialize (R20, R260) with no image byte: `initializeCore` of
Machine/HostInterface.lean adds an image. Memory lists nothing, so every byte reads as its reset contents. -/
def State.reset : State where
  v := Vector.replicate 16 0
  i := 0
  pc := 0x200
  stack := []
  dt := 0
  st := 0
  mem := []
  disp := Vector.replicate 32 (Vector.replicate 64 false)
  keys := Vector.replicate 16 false
  runState := .running
  faultRec := none
  keyWait := false
  rndDraws := 0
  keyPicks := 0

end Sys2Proof.Machine
end

