-- ==== Sys2Proof/Machine/Ops.lean ====
section
/-! DEFINITION. The named operations over the state: memory with its checks (spec/20_memory.md), the registers, pc and
call stack (spec/10_state.md), the display's pixels, the keypad latch, raising a fault (spec/60_exceptions.md R222) and
the unknown opcode (spec/30_encoding.md R84). -/

namespace Sys2Proof.Machine

/-! ### One update per stored element -/

/-- pc <- t. -/
def State.setPc (s : State) (t : Word) : State := { s with pc := t }

/-- pc <- pc + 2: the advance of R81, and a skip (R100). -/
def State.advance (s : State) : State := { s with pc := s.pc + 2 }

/-- I <- a. -/
def State.setI (s : State) (a : Word) : State := { s with i := a }

/-- The whole register file. -/
def State.setRegs (s : State) (v : Vector Byte 16) : State := { s with v := v }

/-- Stack <- l. -/
def State.setStack (s : State) (l : List Word) : State := { s with stack := l }

/-- DT <- b. -/
def State.setDt (s : State) (b : Byte) : State := { s with dt := b }

/-- ST <- b. -/
def State.setSt (s : State) (b : Byte) : State := { s with st := b }

/-- Mem <- m. -/
def State.setMem (s : State) (m : Memory) : State := { s with mem := m }

/-- Disp <- d. -/
def State.setDisp (s : State) (d : Display) : State := { s with disp := d }

/-- Key <- levels. -/
def State.setKeys (s : State) (levels : KeyLevels) : State := { s with keys := levels }

/-- RunState <- r. -/
def State.setRun (s : State) (r : RunState) : State := { s with runState := r }

/-- KeyWait <- b. -/
def State.setWait (s : State) (b : Bool) : State := { s with keyWait := b }

/-- One more random byte drawn (log entry 2). -/
def State.countDraw (s : State) : State := { s with rndDraws := s.rndDraws + 1 }

/-- One more key taken (log entry 3). -/
def State.countPick (s : State) : State := { s with keyPicks := s.keyPicks + 1 }

/-! ### Memory as data (R34, R50, R60) -/

/-- What a byte of memory that no write has changed reads as: the font, then zero (R51, R260; D22). -/
def Memory.initial (a : Nat) : Byte := if a < Config.fontSize then font.getD a 0 else 0

/-- The byte at an address. Callers check the range first; above ADDR_MAX nothing is listed and the result is zero. -/
def Memory.read (m : Memory) (a : Nat) : Byte :=
  match m with
  | [] => Memory.initial a
  | (c, b) :: rest => if a = c then b else Memory.read rest a

/-- Put a byte in its place of the rising list, or remove the place when the byte is the reset contents. -/
def Memory.insert (m : Memory) (a : Nat) (b : Byte) : Memory :=
  match m with
  | [] => if b = Memory.initial a then [] else [(a, b)]
  | (c, x) :: rest =>
    if a < c then (if b = Memory.initial a then (c, x) :: rest else (a, b) :: (c, x) :: rest)
    else if a = c then (if b = Memory.initial a then rest else (a, b) :: rest)
    else (c, x) :: Memory.insert rest a b

/-- Mem[a] <- b; there is no memory above ADDR_MAX. -/
def Memory.store (m : Memory) (a : Nat) (b : Byte) : Memory :=
  if a ≤ Config.addrMax then Memory.insert m a b else m

/-- Store bytes at successive addresses. -/
def Memory.storeBytes (m : Memory) (a : Nat) (bytes : List Byte) : Memory :=
  match bytes with
  | [] => m
  | b :: bs => Memory.storeBytes (Memory.store m a b) (a + 1) bs

/-- The bytes at n successive addresses. -/
def Memory.readBytes (m : Memory) (a n : Nat) : List Byte := (List.range n).map fun k => Memory.read m (a + k)

/-- The canonical form: addresses strictly rising and in memory, no entry equal to its reset contents. -/
abbrev Memory.wf (m : Memory) : Prop :=
  m.Pairwise (fun p q => p.1 < q.1) ∧ ∀ p ∈ m, p.1 ≤ Config.addrMax ∧ p.2 ≠ Memory.initial p.1

/-! ### Faults (R222, R223) -/

/-- What `raise F(info)` names (spec/00_scope.md R12): a cause and its info. -/
structure Trap where
  cause : FaultCause
  info : Word
  deriving DecidableEq, Repr

/-- The numeric code of a cause (R223). -/
def FaultCause.code : FaultCause → Nat
  | .stackOverflow => 1
  | .stackUnderflow => 2
  | .memoryFetch => 3
  | .memoryRead => 4
  | .memoryWrite => 5
  | .lowMemoryWrite => 6
  | .keyIndex => 7

/-- TAKING A FAULT (R222): on the state from before the step, so that pc is the faulting instruction's address and
every change of the step is discarded; FaultRec is written and RunState becomes Faulted. -/
def State.raise (s : State) (opcode : Option Word) (f : Trap) : State :=
  { s with faultRec := some ⟨f.cause, s.pc, opcode, f.info⟩, runState := .faulted }

/-- The outcome of an instruction that started in s: the state it computed, or s with its fault taken. The opcode is
the instruction's word, which is the fetched one (log entry 10). -/
def State.conclude (s : State) (i : Instr) (r : Except Trap State) : Host.Outcome State Fault Refusal :=
  match r with
  | .ok t => .next t
  | .error f => .next (s.raise (some (encode i)) f)

/-! ### Checked memory accesses (R54 to R57, R59) -/

/-- The info of a range fault: the first byte address above 0xFFF of a block from start (R223). -/
def firstBad (start : Nat) : Word := BitVec.ofNat 16 (max start Config.memSize)

/-- Every byte of the block is in memory, else MemoryFault of the kind (R55). A block of no byte passes. -/
def checkRange (kind : FaultCause) (start n : Nat) : Except Trap Unit :=
  if n = 0 ∨ start + n ≤ Config.memSize then .ok () else .error ⟨kind, firstBad start⟩

/-- No byte of the block is below 0x200, else LowMemoryWrite (R56). -/
def checkLow (start : Nat) : Except Trap Unit :=
  if Config.progBase ≤ start then .ok () else .error ⟨.lowMemoryWrite, BitVec.ofNat 16 start⟩

/-- MemRead at n successive addresses, every check before the first read (R54; R13); n = 1 is the primitive. -/
def readBlock (kind : FaultCause) (m : Memory) (start n : Nat) : Except Trap (List Byte) :=
  match checkRange kind start n with
  | .ok () => .ok (Memory.readBytes m start n)
  | .error f => .error f

/-- MemWrite at successive addresses, every check of every byte before the first write (R57; R13); one byte is the
primitive. -/
def writeBlock (m : Memory) (start : Nat) (bytes : List Byte) : Except Trap Memory :=
  match checkRange .memoryWrite start bytes.length with
  | .error f => .error f
  | .ok () =>
    match checkLow start with
    | .error f => .error f
    | .ok () => .ok (Memory.storeBytes m start bytes)

/-- Fetch(): the big-endian word at pc (R59, R52). -/
def State.fetch (s : State) : Except Trap Word :=
  match readBlock .memoryFetch s.mem s.pc.toNat 2 with
  | .ok bytes => .ok (wordOfBytes (bytes.getD 0 0) (bytes.getD 1 0))
  | .error f => .error f

/-! ### The call stack (R28 to R30) -/

/-- push(v) (R29). -/
def State.push (s : State) (v : Word) : Except Trap State :=
  if s.stack.length < stackDepth then .ok (s.setStack (s.stack ++ [v]))
  else .error ⟨.stackOverflow, BitVec.ofNat 16 s.stack.length⟩

/-- pop(): the last entry and the state without it (R30). -/
def State.pop (s : State) : Except Trap (Word × State) :=
  match s.stack.getLast? with
  | some v => .ok (v, s.setStack s.stack.dropLast)
  | none => .error ⟨.stackUnderflow, 0⟩

/-! ### Display (R32) -/

/-- Disp[y][x]; false outside the buffer. -/
def Display.pixel (d : Display) (y x : Nat) : Bool :=
  match d[y]? with
  | some row => (row[x]?).getD false
  | none => false

/-- Disp[y][x] <- b; nothing outside the buffer. -/
def Display.setPixel (d : Display) (y x : Nat) (b : Bool) : Display :=
  match d[y]? with
  | some row => d.setIfInBounds y (row.setIfInBounds x b)
  | none => d

/-- Every pixel off. -/
def Display.blank : Display := Vector.replicate 32 (Vector.replicate 64 false)

/-! ### Keypad latch (R33) -/

/-- Key[k]; false when k names no key. -/
def State.key (s : State) (k : Nat) : Bool := (s.keys[k]?).getD false

/-- The codes of the pressed keys, rising. -/
def State.pressed (s : State) : List Nat := (List.range Config.nKeys).filter s.key

/-! ### The unknown opcode (R84) -/

/-- An unknown word runs as a no-op: only the advance of R81 (R77, R84). Its diagnostic event is an output of the step,
`stepDiag` of Machine/HostInterface.lean. -/
def execUnknown (s : State) : State := s.advance

end Sys2Proof.Machine
end

