-- ==== Sys2Proof/Machine/Operands.lean ====
section
/-! DEFINITION. Operand forms (spec/30_encoding.md R71): general registers named by X and Y, the implicit operands V[0],
VF and I, the index-plus-offset address (spec/42_index_memory.md R160), the sprite origin (spec/43_display.md R180) and
the key index (spec/44_keypad_timer_ops.md R200). -/

namespace Sys2Proof.Machine

/-- V[r] (spec/00_scope.md R12). -/
def State.getV (s : State) (r : Reg) : Byte := s.v[r.toNat]'r.isLt

/-- V[r] <- b. -/
def State.setV (s : State) (r : Reg) (b : Byte) : State :=
  s.setRegs (s.v.set r.toNat b r.isLt)

/-- The effective address I + k, exact: not reduced mod 0x10000 or mod 0x1000 (R160). -/
def State.address (s : State) (k : Nat) : Nat := s.i.toNat + k

/-- The bytes V[0] to V[x], inclusive (R165). -/
def State.firstRegs (s : State) (x : Reg) : List Byte :=
  (List.range (x.toNat + 1)).map fun k => s.getV (BitVec.ofNat 4 k)

/-- Put bytes in successive registers from number k (R166). -/
def loadFrom (v : Vector Byte 16) (k : Nat) (bytes : List Byte) : Vector Byte 16 :=
  match bytes with
  | [] => v
  | b :: bs => loadFrom (v.setIfInBounds k b) (k + 1) bs

/-- x0 = V[X] mod 64, the column a sprite starts at (R180, R182). -/
def State.spriteX (s : State) (x : Reg) : Nat := (s.getV x).toNat % Config.dispW

/-- y0 = V[Y] mod 32, the row a sprite starts at (R180, R182). -/
def State.spriteY (s : State) (y : Reg) : Nat := (s.getV y).toNat % Config.dispH

/-- The key code V[x] names, else KeyIndexFault (R200). -/
def State.keyIndex (s : State) (x : Reg) : Except Trap Nat :=
  if (s.getV x).toNat ≤ 0xF then .ok (s.getV x).toNat else .error ⟨.keyIndex, (s.getV x).setWidth 16⟩

/-- The three decimal digits of a byte: hundreds, tens, ones (R164). -/
def bcdDigits (b : Byte) : List Byte := [b / 100, (b / 10) % 10, b % 10]

end Sys2Proof.Machine
end

