-- ==== Sys2Proof/Machine/Flags.lean ====
section
/-! DEFINITION. Every value VF is written with as a flag (spec/10_state.md R25). -/

namespace Sys2Proof.Machine

/-- A flag as the byte 1 or 0. -/
def flagByte (b : Bool) : Byte := if b then 1 else 0

/-- Carry of 8XY4: the exact sum exceeds 255 (R137). -/
def carry (a b : Byte) : Byte := flagByte (decide (255 < a.toNat + b.toNat))

/-- No borrow of 8XY5 and 8XY7: the first operand is at least the second (R138, R140). -/
def noBorrow (a b : Byte) : Byte := flagByte (decide (b.toNat ≤ a.toNat))

/-- The bit 8XY6 shifts out at the right (R139). -/
def shiftOutRight (a : Byte) : Byte := a &&& 1

/-- The bit 8XYE shifts out at the left (R141). -/
def shiftOutLeft (a : Byte) : Byte := a >>> 7

/-- Collision of DXYN (R182). -/
def collision (hit : Bool) : Byte := flagByte hit

/-- VF <- f. -/
abbrev State.setFlag (s : State) (f : Byte) : State := s.setV Reg.flag f

end Sys2Proof.Machine
end

