-- ==== Sys2Proof/Machine/ControlFlow.lean ====
section
/-! DEFINITION. Returns, jumps, calls and skips (spec/40_control_flow.md). Each meaning starts in the state whose pc is the
instruction's own address A and makes the advance of R81 itself. -/

namespace Sys2Proof.Machine

/-- After the advance, advance a further 2 when the condition holds (R100). -/
def State.skipIf (s : State) (c : Bool) : Host.Outcome State Fault Refusal :=
  .next (if c then s.advance.advance else s.advance)

/-- 00EE RET (R101). -/
def execRet (s : State) : Host.Outcome State Fault Refusal :=
  s.conclude .ret <|
    match s.advance.pop with
    | .ok (v, t) => .ok (t.setPc v)
    | .error f => .error f

/-- 1NNN JP nnn (R102). -/
def execJp (nnn : Word) (s : State) : Host.Outcome State Fault Refusal := .next (s.advance.setPc nnn)

/-- 2NNN CALL nnn (R103). -/
def execCall (nnn : Word) (s : State) : Host.Outcome State Fault Refusal :=
  s.conclude (.call nnn) <|
    match s.advance.push s.advance.pc with
    | .ok t => .ok (t.setPc nnn)
    | .error f => .error f

/-- 3XNN SE Vx, kk (R104). -/
def execSeImm (x : Reg) (nn : Byte) (s : State) : Host.Outcome State Fault Refusal :=
  s.skipIf (s.getV x == nn)

/-- 4XNN SNE Vx, kk (R105). -/
def execSneImm (x : Reg) (nn : Byte) (s : State) : Host.Outcome State Fault Refusal :=
  s.skipIf (s.getV x != nn)

/-- 5XY0 SE Vx, Vy (R106). -/
def execSeReg (x y : Reg) (s : State) : Host.Outcome State Fault Refusal :=
  s.skipIf (s.getV x == s.getV y)

/-- 9XY0 SNE Vx, Vy (R107). -/
def execSneReg (x y : Reg) (s : State) : Host.Outcome State Fault Refusal :=
  s.skipIf (s.getV x != s.getV y)

/-- BNNN JP V0, nnn: the register is always V0 (R108). -/
def execJpV0 (nnn : Word) (s : State) : Host.Outcome State Fault Refusal :=
  .next (s.advance.setPc ((s.getV 0).setWidth 16 + nnn))

end Sys2Proof.Machine
end

