-- ==== Sys2Proof/Machine/Display.lean ====
section
/-! DEFINITION. Display clear and the sprite-drawing pipeline (spec/43_display.md): the loops of R182 over rows and columns,
with the XOR blend, the collision flag, the wrap of the start point and the clipping at the edges. -/

namespace Sys2Proof.Machine

/-- The display and the collision flag as a draw goes on. -/
structure Canvas where
  disp : Display
  hit : Bool
  deriving DecidableEq, Repr

/-- One pixel: a collision when a set bit meets a lit pixel, then XOR (R182). -/
def Canvas.blend (c : Canvas) (y x : Nat) (bit : Bool) : Canvas :=
  { disp := Display.setPixel c.disp y x (xor (Display.pixel c.disp y x) bit)
    hit := c.hit || (bit && Display.pixel c.disp y x) }

/-- The columns cols of a sprite byte at row y, from column x0; past the right edge the rest of the row is clipped.
The bit of column k is (b >> (7 - k)) & 1 (R182). -/
def Canvas.drawColumns (c : Canvas) (b : Byte) (y x0 : Nat) (cols : List Nat) : Canvas :=
  match cols with
  | [] => c
  | k :: ks =>
    if Config.dispW ≤ x0 + k then c
    else Canvas.drawColumns (c.blend y (x0 + k) (b.getLsbD (7 - k))) b y x0 ks

/-- The sprite's bytes, one row each, from row y down (R182). -/
def Canvas.drawRows (c : Canvas) (x0 y : Nat) (bytes : List Byte) : Canvas :=
  match bytes with
  | [] => c
  | b :: bs => Canvas.drawRows (c.drawColumns b y x0 [0, 1, 2, 3, 4, 5, 6, 7]) x0 (y + 1) bs

/-- How many rows are drawn: those of N with y0 + r < 32; the others are neither read nor checked (R182; D27). -/
def drawnRows (y0 n : Nat) : Nat := min n (Config.dispH - y0)

/-- 00E0 CLS: VF is kept (R181). -/
def execCls (s : State) : Host.Outcome State Fault Refusal := .next (s.advance.setDisp Display.blank)

/-- DXYN DRW Vx, Vy, n: the origin is read before VF is written (R182). -/
def execDrw (x y : Reg) (n : Nat) (s : State) : Host.Outcome State Fault Refusal :=
  s.conclude (.drw x y n) <|
    match readBlock .memoryRead s.mem (s.address 0) (drawnRows (s.spriteY y) n) with
    | .error f => .error f
    | .ok bytes =>
      let c := Canvas.drawRows ⟨s.disp, false⟩ (s.spriteX x) (s.spriteY y) bytes
      .ok ((s.advance.setFlag (collision c.hit)).setDisp c.disp)

end Sys2Proof.Machine
end

