-- ==== Sys2Proof/Machine/IndexMemory.lean ====
section
/-! DEFINITION. The index register and the memory-block operations (spec/42_index_memory.md). I is never changed by an
access, and every check of every byte runs before the first write (R160). -/

namespace Sys2Proof.Machine

/-- Store bytes from I on (R160). -/
def State.storeAtI (s : State) (i : Instr) (bytes : List Byte) : Host.Outcome State Fault Refusal :=
  s.conclude i <|
    match writeBlock s.mem (s.address 0) bytes with
    | .ok m => .ok (s.advance.setMem m)
    | .error f => .error f

/-- ANNN LD I, nnn (R161). -/
def execLdI (nnn : Word) (s : State) : Host.Outcome State Fault Refusal := .next (s.advance.setI nnn)

/-- FX1E ADD I, Vx: mod 0x10000, no flag (R162). -/
def execAddI (x : Reg) (s : State) : Host.Outcome State Fault Refusal :=
  .next (s.advance.setI (s.i + (s.getV x).setWidth 16))

/-- FX29 LD F, Vx: V[X] * 5, not masked (R163). -/
def execLdF (x : Reg) (s : State) : Host.Outcome State Fault Refusal :=
  .next (s.advance.setI ((s.getV x).setWidth 16 * 5))

/-- FX33 LD B, Vx (R164). -/
def execLdB (x : Reg) (s : State) : Host.Outcome State Fault Refusal :=
  s.storeAtI (.ldB x) (bcdDigits (s.getV x))

/-- FX55 LD [I], Vx: V[0] to V[X] inclusive (R165). -/
def execStRegs (x : Reg) (s : State) : Host.Outcome State Fault Refusal :=
  s.storeAtI (.stRegs x) (s.firstRegs x)

/-- FX65 LD Vx, [I]: V[0] to V[X] inclusive (R166). -/
def execLdRegs (x : Reg) (s : State) : Host.Outcome State Fault Refusal :=
  s.conclude (.ldRegs x) <|
    match readBlock .memoryRead s.mem (s.address 0) (x.toNat + 1) with
    | .ok bytes => .ok (s.advance.setRegs (loadFrom s.v 0 bytes))
    | .error f => .error f

end Sys2Proof.Machine
end

