-- ==== Sys2Proof/Machine/KeypadTimer.lean ====
section
/-! DEFINITION. Keypad and timer instructions (spec/44_keypad_timer_ops.md). -/

namespace Sys2Proof.Machine

/-- Skip when the level of key V[X] is want; KeyIndexFault when V[X] names no key (R200). -/
def State.skipOnKey (s : State) (i : Instr) (x : Reg) (want : Bool) : Host.Outcome State Fault Refusal :=
  match s.keyIndex x with
  | .ok k => s.skipIf (s.key k == want)
  | .error f => s.conclude i (.error f)

/-- choose(P): any member of the pressed keys k :: ks (R204; log entry 3). With one key there is no choice. -/
def chooseKey (k : Nat) (ks : List Nat) (pick : Nat) : Nat :=
  match ks with
  | [] => k
  | _ :: _ => (k :: ks).getD (pick % (ks.length + 1)) k

/-- EX9E SKP Vx (R201). -/
def execSkp (x : Reg) (s : State) : Host.Outcome State Fault Refusal := s.skipOnKey (.skp x) x true

/-- EXA1 SKNP Vx (R202). -/
def execSknp (x : Reg) (s : State) : Host.Outcome State Fault Refusal := s.skipOnKey (.sknp x) x false

/-- FX07 LD Vx, DT (R203). -/
def execLdVxDt (x : Reg) (s : State) : Host.Outcome State Fault Refusal := .next (s.advance.setV x s.dt)

/-- FX15 LD DT, Vx (R205). -/
def execLdDtVx (x : Reg) (s : State) : Host.Outcome State Fault Refusal := .next (s.advance.setDt (s.getV x))

/-- FX18 LD ST, Vx (R206). -/
def execLdStVx (x : Reg) (s : State) : Host.Outcome State Fault Refusal := .next (s.advance.setSt (s.getV x))

/-- FX0A LD Vx, K: with no key pressed the advance is taken back, so the next step fetches it again (R204). -/
def execLdVxK (x : Reg) (s : State) : Host.Outcome State Fault Refusal :=
  match s.pressed with
  | [] => .next ((s.advance.setPc (s.advance.pc - 2)).setWait true)
  | k :: ks =>
    let taken := chooseKey k ks (Config.freeKeyPick s.keyPicks)
    .next ((s.advance.setV x (BitVec.ofNat 8 taken)).setWait false).countPick

end Sys2Proof.Machine
end

