-- ==== Sys2Proof/Machine/RegisterAlu.lean ====
section
/-! DEFINITION. Register file and ALU (spec/41_register_alu.md). The statements of a rule run in the order written, each
reading the registers as the ones before left them (R12, R130; D14). No instruction here can fault. -/

namespace Sys2Proof.Machine

/-- V[x] <- the value of f at V[x] and V[y], no flag (R130). -/
def State.combine (s : State) (f : Byte → Byte → Byte) (x y : Reg) : Host.Outcome State Fault Refusal :=
  .next (s.advance.setV x (f (s.getV x) (s.getV y)))

/-- VF <- flag, then V[x] <- the value of f at V[x] and V[y] read after the flag write (R138 to R141). -/
def State.flagThen (s : State) (flag : Byte) (f : Byte → Byte → Byte) (x y : Reg) :
    Host.Outcome State Fault Refusal :=
  let t := s.advance.setFlag flag
  .next (t.setV x (f (t.getV x) (t.getV y)))

/-- 6XNN LD Vx, kk (R131). -/
def execLdImm (x : Reg) (nn : Byte) (s : State) : Host.Outcome State Fault Refusal :=
  .next (s.advance.setV x nn)

/-- 7XNN ADD Vx, kk: no carry is written (R132). -/
def execAddImm (x : Reg) (nn : Byte) (s : State) : Host.Outcome State Fault Refusal :=
  .next (s.advance.setV x (s.getV x + nn))

/-- 8XY0 LD Vx, Vy (R133). -/
def execLdReg (x y : Reg) (s : State) : Host.Outcome State Fault Refusal := s.combine (fun _ b => b) x y

/-- 8XY1 OR Vx, Vy (R134). -/
def execOr (x y : Reg) (s : State) : Host.Outcome State Fault Refusal := s.combine (fun a b => a ||| b) x y

/-- 8XY2 AND Vx, Vy (R135). -/
def execAnd (x y : Reg) (s : State) : Host.Outcome State Fault Refusal := s.combine (fun a b => a &&& b) x y

/-- 8XY3 XOR Vx, Vy (R136). -/
def execXor (x y : Reg) (s : State) : Host.Outcome State Fault Refusal := s.combine (fun a b => a ^^^ b) x y

/-- 8XY4 ADD Vx, Vy: the sum is read before any write (R137). -/
def execAddReg (x y : Reg) (s : State) : Host.Outcome State Fault Refusal :=
  .next ((s.advance.setFlag (carry (s.getV x) (s.getV y))).setV x (s.getV x + s.getV y))

/-- 8XY5 SUB Vx, Vy (R138). -/
def execSub (x y : Reg) (s : State) : Host.Outcome State Fault Refusal :=
  s.flagThen (noBorrow (s.getV x) (s.getV y)) (fun a b => a - b) x y

/-- 8XY6 SHR Vx, Vy: Y plays no part (R139). -/
def execShr (x y : Reg) (s : State) : Host.Outcome State Fault Refusal :=
  s.flagThen (shiftOutRight (s.getV x)) (fun a _ => a >>> 1) x y

/-- 8XY7 SUBN Vx, Vy (R140). -/
def execSubn (x y : Reg) (s : State) : Host.Outcome State Fault Refusal :=
  s.flagThen (noBorrow (s.getV y) (s.getV x)) (fun a b => b - a) x y

/-- 8XYE SHL Vx, Vy: Y plays no part (R141). -/
def execShl (x y : Reg) (s : State) : Host.Outcome State Fault Refusal :=
  s.flagThen (shiftOutLeft (s.getV x)) (fun a _ => a <<< 1) x y

/-- CXNN RND Vx, kk: one fresh free byte per execution (R151; log entry 2). -/
def execRnd (x : Reg) (nn : Byte) (s : State) : Host.Outcome State Fault Refusal :=
  .next (s.advance.setV x (Config.freeByte s.rndDraws &&& nn)).countDraw

end Sys2Proof.Machine
end

