-- ==== Sys2Proof/Machine/Step.lean ====
section
/-! DEFINITION. One step (spec/30_encoding.md R80, R81) and the placing of an instruction where it is fetched. -/

namespace Sys2Proof.Machine

/-- step(): fetch, advance, execute (R81), only when RunState is Running (spec/60_exceptions.md R221). The advance is
made inside each meaning and inside `execUnknown`. -/
def step (s : State) : Host.Outcome State Fault Refusal :=
  match s.runState with
  | .running =>
    match s.fetch with
    | .error f => .next (s.raise none f)
    | .ok w =>
      match decodeWord w with
      | .ok i => exec i s
      | .error _ => .next (execUnknown s)
  | _ => .next s

/-- s with the instruction of the table-numbered bits w at pc, so that the next step of a Running state with pc at most
0xFFE runs it. It stands for the load of an image (log entry 7). -/
def State.withFetchWord (s : State) (nbits w : Nat) : State :=
  s.setMem (Memory.storeBytes s.mem s.pc.toNat (tableBytes nbits w))

end Sys2Proof.Machine
end

