-- ==== Sys2Proof/Asm.lean ====
section
/-! DEFINITION. The assembler syntax of spec/30_encoding.md R85, for readers of listings: no other definition uses it. -/

namespace Sys2Proof

/-- The hexadecimal digit of a number below 16, in capitals. -/
def hexDigit (n : Nat) : Char :=
  ['0', '1', '2', '3', '4', '5', '6', '7', '8', '9', 'A', 'B', 'C', 'D', 'E', 'F'].getD n '?'

/-- The lowest digits of a number in hexadecimal, most significant first. -/
def hexDigits : Nat → Nat → List Char
  | 0, _ => []
  | digits + 1, n => hexDigits digits (n / 16) ++ [hexDigit (n % 16)]

/-- A number with its 0x mark. -/
def hexNumber (digits n : Nat) : String := "0x" ++ String.ofList (hexDigits digits n)

/-- V0 to VF. -/
def regName (r : Reg) : String := "V" ++ String.ofList [hexDigit r.toNat]

/-- A mnemonic with two operands. -/
def twoOperands (op a b : String) : String := op ++ " " ++ a ++ ", " ++ b

/-- The assembler text of an instruction (R85): the row count of DRW in decimal, as the listings of
spec/95_test_vectors.md write it; kk has two hexadecimal digits, nnn three. -/
def Instr.asm : Instr → String
  | .cls => "CLS"
  | .ret => "RET"
  | .jp nnn => "JP " ++ hexNumber 3 nnn.toNat
  | .call nnn => "CALL " ++ hexNumber 3 nnn.toNat
  | .seImm x nn => twoOperands "SE" (regName x) (hexNumber 2 nn.toNat)
  | .sneImm x nn => twoOperands "SNE" (regName x) (hexNumber 2 nn.toNat)
  | .seReg x y => twoOperands "SE" (regName x) (regName y)
  | .ldImm x nn => twoOperands "LD" (regName x) (hexNumber 2 nn.toNat)
  | .addImm x nn => twoOperands "ADD" (regName x) (hexNumber 2 nn.toNat)
  | .ldReg x y => twoOperands "LD" (regName x) (regName y)
  | .orReg x y => twoOperands "OR" (regName x) (regName y)
  | .andReg x y => twoOperands "AND" (regName x) (regName y)
  | .xorReg x y => twoOperands "XOR" (regName x) (regName y)
  | .addReg x y => twoOperands "ADD" (regName x) (regName y)
  | .sub x y => twoOperands "SUB" (regName x) (regName y)
  | .shr x y => twoOperands "SHR" (regName x) (regName y)
  | .subn x y => twoOperands "SUBN" (regName x) (regName y)
  | .shl x y => twoOperands "SHL" (regName x) (regName y)
  | .sneReg x y => twoOperands "SNE" (regName x) (regName y)
  | .ldI nnn => twoOperands "LD" "I" (hexNumber 3 nnn.toNat)
  | .jpV0 nnn => twoOperands "JP" "V0" (hexNumber 3 nnn.toNat)
  | .rnd x nn => twoOperands "RND" (regName x) (hexNumber 2 nn.toNat)
  | .drw x y n => twoOperands "DRW" (regName x) (regName y) ++ ", " ++ toString n
  | .skp x => "SKP " ++ regName x
  | .sknp x => "SKNP " ++ regName x
  | .ldVxDt x => twoOperands "LD" (regName x) "DT"
  | .ldVxK x => twoOperands "LD" (regName x) "K"
  | .ldDtVx x => twoOperands "LD" "DT" (regName x)
  | .ldStVx x => twoOperands "LD" "ST" (regName x)
  | .addI x => twoOperands "ADD" "I" (regName x)
  | .ldF x => twoOperands "LD" "F" (regName x)
  | .ldB x => twoOperands "LD" "B" (regName x)
  | .stRegs x => twoOperands "LD" "[I]" (regName x)
  | .ldRegs x => twoOperands "LD" (regName x) "[I]"

/-- The listing line of a word: its instruction, or a data word where it is unknown (R85). -/
def asmWord (w : Word) : String :=
  match decodeWord w with
  | .ok i => i.asm
  | .error _ => "DW " ++ hexNumber 4 w.toNat

end Sys2Proof
end

