-- ==== Sys2Proof/Machine/HostInterface.lean ====
section
/-! DEFINITION. The host interface of the core (spec/60_exceptions.md R244): initialize, the timer tick, the keypad latch's
write port, the pause, resume and quit commands, the outputs, and the frame of spec/70_reset_and_hazards.md R270. Every
interaction happens between steps. -/

namespace Sys2Proof.Machine

/-! ### Initialisation (R260, R261) -/

/-- Why no engine is built. -/
inductive LoadError where
  /-- The image has more than 3584 bytes (R231, R261). -/
  | programTooLarge
  deriving DecidableEq, Repr

/-- initialize(program_bytes) (R260): the reset state with the image at 0x200. -/
def initializeCore (image : List Byte) : Except LoadError State :=
  if Config.progMax < image.length then .error .programTooLarge
  else .ok (State.reset.setMem (Memory.storeBytes State.reset.mem Config.progBase image))

/-! ### Timer countdown controller (R234 to R238) -/

/-- One counter of the tick: toward 0, floored at 0 (R235). -/
def countDown (b : Byte) : Byte := if b = 0 then 0 else b - 1

/-- tick(), only when Running (R235, R236). -/
def tick (s : State) : State :=
  match s.runState with
  | .running => (s.setDt (countDown s.dt)).setSt (countDown s.st)
  | _ => s

/-- The tone output (R238). -/
def tone (s : State) : Bool := s.st != 0

/-! ### Keypad latch (R239, R240) -/

/-- The host writes all 16 levels at once. -/
def latchKeys (levels : KeyLevels) (s : State) : State := s.setKeys levels

/-! ### Commands (R220, R232, R233) -/

/-- Running to Paused. -/
def pause (s : State) : State :=
  match s.runState with
  | .running => s.setRun .paused
  | _ => s

/-- Paused to Running. -/
def resume (s : State) : State :=
  match s.runState with
  | .paused => s.setRun .running
  | _ => s

/-- Running or Paused to Halted(Quit). -/
def quit (s : State) : State :=
  match s.runState with
  | .running | .paused => s.setRun .haltedQuit
  | _ => s

/-! ### Outputs (R241 to R243) -/

/-- The status outputs (R242). -/
structure Status where
  runState : RunState
  faultRec : Option FaultRecord
  keyWait : Bool
  tone : Bool
  deriving DecidableEq, Repr

/-- What the host reads as status between steps (R242). -/
def status (s : State) : Status := ⟨s.runState, s.faultRec, s.keyWait, tone s⟩

/-- The numeric fault code the status shows: 0 when FaultRec is empty (R223). -/
def faultCode (s : State) : Nat :=
  match s.faultRec with
  | none => 0
  | some r => r.cause.code

/-- What the host reads of the display (R241). -/
def readDisplay (s : State) : Display := s.disp

/-- The event DiagUnknownOpcode(addr, opcode) (R243). -/
structure DiagUnknownOpcode where
  addr : Word
  opcode : Word
  deriving DecidableEq, Repr

/-- The diagnostic event the step taken in s emits, if any: an output of the step and no state (R84, R243; log entry 8). -/
def stepDiag (s : State) : Option DiagUnknownOpcode :=
  match s.runState, s.fetch with
  | .running, .ok w =>
    match decodeWord w with
    | .ok _ => none
    | .error _ => some ⟨s.pc, w⟩
  | _, _ => none

/-! ### Interactions and frames (R244, R270) -/

/-- The interactions that can change the state after initialize (R244). -/
inductive Interaction where
  | step
  | latchKeys (levels : KeyLevels)
  | tick
  | pause
  | resume
  | quit
  deriving DecidableEq, Repr

/-- One interaction. -/
def interact (e : Interaction) (s : State) : Host.Outcome State Fault Refusal :=
  match e with
  | .step => step s
  | .latchKeys levels => .next (latchKeys levels s)
  | .tick => .next (tick s)
  | .pause => .next (pause s)
  | .resume => .next (resume s)
  | .quit => .next (quit s)

/-- Any schedule of interactions, in order: the host decides it (R240; D2). -/
def interactAll (es : List Interaction) (s : State) : Host.Outcome State Fault Refusal :=
  match es with
  | [] => .next s
  | e :: rest =>
    match interact e s with
    | .next t => interactAll rest t
    | .fault f => .fault f
    | .refused r => .refused r

/-- The interactions of one frame up to the host's reads: the latch write, IPF steps and one tick; steps and ticks do
nothing unless Running (R270; IPF is the parameter of R7); then the quit check. -/
def frameSchedule (ipf : Nat) (levels : KeyLevels) (quitNow : Bool) : List Interaction :=
  .latchKeys levels :: List.replicate ipf .step ++ .tick :: (if quitNow then [.quit] else [])

/-- frame() (R270). -/
def frame (ipf : Nat) (levels : KeyLevels) (quitNow : Bool) (s : State) : Host.Outcome State Fault Refusal :=
  interactAll (frameSchedule ipf levels quitNow) s

/-! ### End of a run (R249) -/

/-- "The program is done": Running, no fault recorded, and the word at pc is a jump to itself (R249). -/
def done (s : State) : Bool :=
  match s.fetch with
  | .ok w => s.runState == .running && s.faultRec == none && decodeWord w == .ok (.jp s.pc)
  | .error _ => false

end Sys2Proof.Machine
end

