-- ==== Sys2Proof/Safety.lean ====
section
/-! DEFINITION. The terms statements use: which parts of the state a change touches (frames), the state a fault leaves, the
closed form of a sprite, and the invariants of the machine. -/

namespace Sys2Proof.Machine

/-! ### Frames -/

/-- The parts of the state: each register, each byte of memory and each stored element of spec/10_state.md R20 by itself. -/
inductive Part where
  | v (r : Reg)
  | i
  | pc
  | stack
  | dt
  | st
  | mem (a : Nat)
  | disp
  | keys
  | runState
  | faultRec
  | keyWait
  | rndDraws
  | keyPicks
  deriving DecidableEq, Repr

/-- The part reads the same in both states. -/
def Part.same (p : Part) (s t : State) : Prop :=
  match p with
  | .v r => t.getV r = s.getV r
  | .i => t.i = s.i
  | .pc => t.pc = s.pc
  | .stack => t.stack = s.stack
  | .dt => t.dt = s.dt
  | .st => t.st = s.st
  | .mem a => Memory.read t.mem a = Memory.read s.mem a
  | .disp => t.disp = s.disp
  | .keys => t.keys = s.keys
  | .runState => t.runState = s.runState
  | .faultRec => t.faultRec = s.faultRec
  | .keyWait => t.keyWait = s.keyWait
  | .rndDraws => t.rndDraws = s.rndDraws
  | .keyPicks => t.keyPicks = s.keyPicks

/-- The frame: every part not listed, every byte of memory among them, is unchanged. -/
def ChangesOnly (ps : List Part) (s t : State) : Prop := ∀ p, p ∉ ps → p.same s t

/-- The registers V[0] to V[x]. -/
def regParts (x : Reg) : List Part := (List.range (x.toNat + 1)).map fun k => .v (BitVec.ofNat 4 k)

/-- n bytes of memory from address a. -/
def memParts (a n : Nat) : List Part := (List.range n).map fun k => .mem (a + k)

/-- The frame of every instruction: the parts it writes when it does not fault (the writers of spec/10_state.md R24 to
R37 and spec/20_memory.md R53; VF where R25 lists the instruction). Every instruction advances or writes pc (R81). -/
def writtenParts (s : State) (i : Instr) : List Part :=
  match i with
  | .cls => [.pc, .disp]
  | .ret | .call _ => [.pc, .stack]
  | .jp _ | .jpV0 _ => [.pc]
  | .seImm _ _ | .sneImm _ _ | .seReg _ _ | .sneReg _ _ | .skp _ | .sknp _ => [.pc]
  | .ldImm x _ | .addImm x _ | .ldReg x _ | .orReg x _ | .andReg x _ | .xorReg x _ | .ldVxDt x => [.pc, .v x]
  | .addReg x _ | .sub x _ | .shr x _ | .subn x _ | .shl x _ => [.pc, .v x, .v Reg.flag]
  | .ldI _ | .addI _ | .ldF _ => [.pc, .i]
  | .rnd x _ => [.pc, .v x, .rndDraws]
  | .drw _ _ _ => [.pc, .v Reg.flag, .disp]
  | .ldVxK x => [.pc, .v x, .keyWait, .keyPicks]
  | .ldDtVx _ => [.pc, .dt]
  | .ldStVx _ => [.pc, .st]
  | .ldB _ => .pc :: memParts s.i.toNat 3
  | .stRegs x => .pc :: memParts s.i.toNat (x.toNat + 1)
  | .ldRegs x => .pc :: regParts x

/-! ### Fetch -/

/-- The big-endian word of the bytes at a and a + 1 (spec/20_memory.md R52). -/
def wordAt (s : State) (a : Nat) : Word := wordOfBytes (Memory.read s.mem a) (Memory.read s.mem (a + 1))

/-! ### Faults -/

/-- Which causes an instruction can raise after its fetch (spec/60_exceptions.md R224). -/
def canRaise (i : Instr) (c : FaultCause) : Bool :=
  match i with
  | .ret => c == .stackUnderflow
  | .call _ => c == .stackOverflow
  | .drw _ _ _ | .ldRegs _ => c == .memoryRead
  | .skp _ | .sknp _ => c == .keyIndex
  | .ldB _ | .stRegs _ => c == .memoryWrite || c == .lowMemoryWrite
  | .cls | .jp _ | .jpV0 _ | .seImm _ _ | .sneImm _ _ | .seReg _ _ | .sneReg _ _ => false
  | .ldImm _ _ | .addImm _ _ | .ldReg _ _ | .orReg _ _ | .andReg _ _ | .xorReg _ _ => false
  | .addReg _ _ | .sub _ _ | .shr _ _ | .subn _ _ | .shl _ _ | .rnd _ _ => false
  | .ldI _ | .addI _ | .ldF _ | .ldVxDt _ | .ldVxK _ | .ldDtVx _ | .ldStVx _ => false

/-- The instruction takes the fault in s exactly as spec/60_exceptions.md R222 says: nothing of the state changes but
FaultRec, which names the cause, the instruction's address, its word and the info, and RunState. -/
def TakesFault (i : Instr) (s : State) (cause : FaultCause) (info : Word) : Prop :=
  exec i s = .next { s with
    runState := .faulted
    faultRec := some { cause := cause, pc := s.pc, opcode := some (encode i), info := info } }

/-! ### The closed form of a sprite (spec/43_display.md R182, R183) -/

/-- The bit a sprite of n rows at (x0, y0), its bytes from address a on, has at row y and column x of the display:
false outside its 8 by n rectangle. -/
def spriteBit (m : Memory) (a x0 y0 n y x : Nat) : Bool :=
  decide (y0 ≤ y ∧ y < y0 + n ∧ x0 ≤ x ∧ x < x0 + 8) && (Memory.read m (a + (y - y0))).getLsbD (7 - (x - x0))

/-! ### Invariants -/

/-- Memory is in its canonical form. -/
def MemoryCanonical (s : State) : Prop := Memory.wf s.mem

/-- No write ever occurs below the program-load address: the font and the zero area are intact (spec/20_memory.md R56). -/
def LowMemoryIntact (s : State) : Prop := ∀ a, a < Config.progBase → Memory.read s.mem a = Memory.initial a

/-- pc never exceeds 0x10FE; the stack holds at most 16 entries, each a pushed return address, 0x002 to 0x1000
(spec/30_encoding.md R82; spec/40_control_flow.md R110; spec/10_state.md R28). -/
def PcAndStackBounded (s : State) : Prop :=
  s.pc.toNat ≤ 0x10FE ∧ s.stack.length ≤ 16 ∧ ∀ a ∈ s.stack, 0x002 ≤ a.toNat ∧ a.toNat ≤ 0x1000

/-- A fault is recorded exactly in the state Faulted (spec/60_exceptions.md R222). -/
def FaultRecorded (s : State) : Prop := s.runState = .faulted ↔ s.faultRec ≠ none

/-- KeyWait is 1 only at an FX0A, the instruction the rewound pc names (spec/10_state.md R37; R204). -/
def KeyWaitAtWait (s : State) : Prop := s.keyWait = true → ∃ x, s.fetch = .ok (encode (.ldVxK x))

/-- All of them. -/
def Inv (s : State) : Prop :=
  MemoryCanonical s ∧ LowMemoryIntact s ∧ PcAndStackBounded s ∧ FaultRecorded s ∧ KeyWaitAtWait s

end Sys2Proof.Machine
end

