-- ==== Sys2Proof/Certificates/Slice0/Obligations.lean ====
section
/-! DEFINITION. The statements for the provers. Each docstring names the rules of spec/ it formalises. A statement about an
instruction gives its whole next state: its results, and `ChangesOnly` for everything else. -/

open Sys2Proof Sys2Proof.Machine

/-! ### The cycle: fetch, decode, execute -/

/-- R80, R81, R83: a step of a Running core runs the instruction the bytes at pc decode to, which is well formed; the
advance of R81 and the undoing of R222 are inside `exec`. -/
def Obligations.StepRunsDecodedInstruction : Prop :=
  ∀ (s : State) (i : Instr), s.runState = .running → s.pc.toNat ≤ 0xFFE →
    decode [Memory.read s.mem s.pc.toNat, Memory.read s.mem (s.pc.toNat + 1)] = .ok (i, []) →
    i.wellFormed = true ∧ step s = exec i s ∧ stepDiag s = none

/-- R84, R243: an unknown word advances pc by 2, changes nothing else, and emits the one event with the word and its
address. -/
def Obligations.UnknownWordIsNoOp : Prop :=
  ∀ (s : State) (e : DecodeError), s.runState = .running → s.pc.toNat ≤ 0xFFE →
    decodeWord (wordAt s s.pc.toNat) = .error e →
    step s = .next { s with pc := s.pc + 2 } ∧ stepDiag s = some ⟨s.pc, wordAt s s.pc.toNat⟩

/-- R59: a fetch needs pc and pc + 1 in memory; otherwise MemoryFault(Fetch) at the first byte address above 0xFFF, with
no opcode recorded (R222, R223). -/
def Obligations.FetchChecksBothBytes : Prop :=
  ∀ s : State, s.runState = .running →
    (s.pc.toNat + 1 ≤ 0xFFF → s.fetch = .ok (wordAt s s.pc.toNat)) ∧
    (0xFFF < s.pc.toNat + 1 → step s = .next { s with
      runState := .faulted
      faultRec := some { cause := .memoryFetch, pc := s.pc, opcode := none
                         info := if 0xFFF < s.pc.toNat then s.pc else 0x1000 } })

/-- R221: a step command when RunState is not Running does nothing: no fetch, no event, no state change. -/
def Obligations.StepOnlyWhenRunning : Prop :=
  ∀ s : State, s.runState ≠ .running → step s = .next s ∧ stepDiag s = none

/-- Every step of every state gives a next state: no word and no access leaves the core without a meaning (R79, R222). -/
def Obligations.EveryStepCompletes : Prop := ∀ s : State, ∃ t, step s = .next t

/-- R52, R70: decoding the bytes of a well-formed instruction gives it back, with the bytes after it untouched. -/
def Obligations.DecodeOfEncodeIsIdentity : Prop :=
  ∀ (i : Instr) (rest : List Byte), i.wellFormed = true → decode (encodeBytes i ++ rest) = .ok (i, rest)

/-- The other direction: an instruction the decoder reads is well formed and encodes to the very word it was read from. -/
def Obligations.EncodeOfDecodeIsIdentity : Prop :=
  ∀ (w : Word) (i : Instr), decodeWord w = .ok i → i.wellFormed = true ∧ encode i = w

/-- R73: a word decodes to what a row of the map whose mask and match select it builds, and no two rows match the same
word, so the order of the rows does not matter. -/
def Obligations.OpcodeMapSelectsAtMostOneRow : Prop :=
  ∀ w : Word,
    (∀ i, decodeWord w = .ok i ↔ ∃ r ∈ opcodeRows, w &&& r.mask = r.pattern ∧ r.build w = i) ∧
    (∀ r ∈ opcodeRows, ∀ q ∈ opcodeRows, w &&& r.mask = r.pattern → w &&& q.mask = q.pattern →
      r.mnemonic = q.mnemonic)

/-- R75: the words that are unknown are exactly those some literal nibble of whose family does not match. -/
def Obligations.StrictDecodeOfLiteralNibbles : Prop :=
  ∀ w : Word, (∃ e, decodeWord w = .error e) ↔
    (w.toNat / 4096 = 0x0 ∧ w.toNat ≠ 0x00E0 ∧ w.toNat ≠ 0x00EE) ∨
    (w.toNat / 4096 = 0x5 ∧ w.toNat % 16 ≠ 0) ∨
    (w.toNat / 4096 = 0x8 ∧ w.toNat % 16 ∈ [0x8, 0x9, 0xA, 0xB, 0xC, 0xD, 0xF]) ∨
    (w.toNat / 4096 = 0x9 ∧ w.toNat % 16 ≠ 0) ∨
    (w.toNat / 4096 = 0xE ∧ w.toNat % 256 ∉ [0x9E, 0xA1]) ∨
    (w.toNat / 4096 = 0xF ∧ w.toNat % 256 ∉ [0x07, 0x0A, 0x15, 0x18, 0x1E, 0x29, 0x33, 0x55, 0x65])

/-- Words written out from the patterns of R73 and from spec/95_test_vectors.md, one or more of each family. -/
def Obligations.SampleWordsDecode : Prop :=
  decodeWord 0x00E0 = .ok .cls ∧ decodeWord 0x00EE = .ok .ret ∧ decodeWord 0x2ABC = .ok (.call 0xABC) ∧
  decodeWord 0x3310 = .ok (.seImm 3 0x10) ∧ decodeWord 0x9120 = .ok (.sneReg 1 2) ∧
  decodeWord 0x8376 = .ok (.shr 3 7) ∧ decodeWord 0xC00F = .ok (.rnd 0 0x0F) ∧ decodeWord 0xA123 = .ok (.ldI 0x123) ∧
  decodeWord 0xD345 = .ok (.drw 3 4 5) ∧ decodeWord 0xE19E = .ok (.skp 1) ∧ decodeWord 0xF20A = .ok (.ldVxK 2) ∧
  decodeWord 0xF255 = .ok (.stRegs 2) ∧ decodeWord 0x0123 = .error (.unknownOpcode 0x0123)

/-! ### Control transfer -/

/-- R101, R30: RET pops the last pushed address into pc; with an empty stack it takes StackUnderflow. -/
def Obligations.ReturnPopsIntoPc : Prop :=
  ∀ s : State,
    (∀ (l : List Word) (a : Word), s.stack = l ++ [a] →
      ∃ t, exec .ret s = .next t ∧ t.pc = a ∧ t.stack = l ∧ ChangesOnly [.pc, .stack] s t) ∧
    (s.stack = [] → TakesFault .ret s .stackUnderflow 0)

/-- R102: JP writes its target to pc. -/
def Obligations.JumpWritesTarget : Prop :=
  ∀ (s : State) (nnn : Word), ∃ t, exec (.jp nnn) s = .next t ∧ t.pc = nnn ∧ ChangesOnly [.pc] s t

/-- R103, R29: CALL pushes the address after itself and jumps; on a full stack it takes StackOverflow, info the depth. -/
def Obligations.CallPushesReturnAddress : Prop :=
  ∀ (s : State) (nnn : Word),
    (s.stack.length < 16 → ∃ t, exec (.call nnn) s = .next t ∧ t.pc = nnn ∧ t.stack = s.stack ++ [s.pc + 2] ∧
      ChangesOnly [.pc, .stack] s t) ∧
    (s.stack.length = 16 → TakesFault (.call nnn) s .stackOverflow 16)

/-- A return after a call goes on behind the call with the stack as before it: the pair changes pc only, by 2. -/
def Obligations.CallThenReturnComesBack : Prop :=
  ∀ (s : State) (nnn : Word), s.stack.length < 16 →
    ∃ t u, exec (.call nnn) s = .next t ∧ exec .ret t = .next u ∧ u.pc = s.pc + 2 ∧ ChangesOnly [.pc] s u

/-- R108: JP V0 adds V0 and NNN exactly, not reduced mod 0x1000. -/
def Obligations.JumpWithOffsetIsExact : Prop :=
  ∀ (s : State) (nnn : Word), (Instr.jpV0 nnn).wellFormed = true →
    ∃ t, exec (.jpV0 nnn) s = .next t ∧ t.pc.toNat = (s.getV 0).toNat + nnn.toNat ∧ ChangesOnly [.pc] s t

/-- R104, R105: the immediate skips. -/
def Obligations.ImmediateSkipsCompare : Prop :=
  ∀ (s : State) (x : Reg) (nn : Byte),
    (∃ t, exec (.seImm x nn) s = .next t ∧ t.pc = (if (s.getV x).toNat = nn.toNat then s.pc + 4 else s.pc + 2) ∧
      ChangesOnly [.pc] s t) ∧
    (∃ t, exec (.sneImm x nn) s = .next t ∧ t.pc = (if (s.getV x).toNat = nn.toNat then s.pc + 2 else s.pc + 4) ∧
      ChangesOnly [.pc] s t)

/-- R106, R107: the register skips. -/
def Obligations.RegisterSkipsCompare : Prop :=
  ∀ (s : State) (x y : Reg),
    (∃ t, exec (.seReg x y) s = .next t ∧
      t.pc = (if (s.getV x).toNat = (s.getV y).toNat then s.pc + 4 else s.pc + 2) ∧ ChangesOnly [.pc] s t) ∧
    (∃ t, exec (.sneReg x y) s = .next t ∧
      t.pc = (if (s.getV x).toNat = (s.getV y).toNat then s.pc + 2 else s.pc + 4) ∧ ChangesOnly [.pc] s t)

/-! ### Register file and ALU -/

/-- R131, R132, R133: load immediate, add immediate mod 256 without a carry, copy. -/
def Obligations.LoadAddAndCopy : Prop :=
  ∀ (s : State) (x y : Reg) (nn : Byte),
    (∃ t, exec (.ldImm x nn) s = .next t ∧ t.getV x = nn ∧ t.pc = s.pc + 2 ∧ ChangesOnly [.pc, .v x] s t) ∧
    (∃ t, exec (.addImm x nn) s = .next t ∧ (t.getV x).toNat = ((s.getV x).toNat + nn.toNat) % 256 ∧
      t.pc = s.pc + 2 ∧ ChangesOnly [.pc, .v x] s t) ∧
    (∃ t, exec (.ldReg x y) s = .next t ∧ t.getV x = s.getV y ∧ t.pc = s.pc + 2 ∧ ChangesOnly [.pc, .v x] s t)

/-- R134, R135, R136: OR, AND, XOR bit by bit; VF is not written as a flag. -/
def Obligations.BitwiseOperations : Prop :=
  ∀ (s : State) (x y : Reg),
    (∃ t, exec (.orReg x y) s = .next t ∧ t.pc = s.pc + 2 ∧ ChangesOnly [.pc, .v x] s t ∧
      ∀ k, k < 8 → (t.getV x).getLsbD k = ((s.getV x).getLsbD k || (s.getV y).getLsbD k)) ∧
    (∃ t, exec (.andReg x y) s = .next t ∧ t.pc = s.pc + 2 ∧ ChangesOnly [.pc, .v x] s t ∧
      ∀ k, k < 8 → (t.getV x).getLsbD k = ((s.getV x).getLsbD k && (s.getV y).getLsbD k)) ∧
    (∃ t, exec (.xorReg x y) s = .next t ∧ t.pc = s.pc + 2 ∧ ChangesOnly [.pc, .v x] s t ∧
      ∀ k, k < 8 → (t.getV x).getLsbD k = ((s.getV x).getLsbD k != (s.getV y).getLsbD k))

/-- R137: V[X] is the sum mod 256, whatever X and Y are; VF is the carry unless X is F. -/
def Obligations.AddWritesSumAndCarry : Prop :=
  ∀ (s : State) (x y : Reg), ∃ t, exec (.addReg x y) s = .next t ∧
    (t.getV x).toNat = ((s.getV x).toNat + (s.getV y).toNat) % 256 ∧
    (x ≠ Reg.flag → (t.getV Reg.flag).toNat = if (s.getV x).toNat + (s.getV y).toNat > 255 then 1 else 0) ∧
    t.pc = s.pc + 2 ∧ ChangesOnly [.pc, .v x, .v Reg.flag] s t

/-- R138: VF is the no-borrow flag, then V[X] is the difference mod 256 of the registers as the flag write left them;
if X is F the difference is VF's final value. -/
def Obligations.SubtractWritesFlagThenDifference : Prop :=
  ∀ (s : State) (x y : Reg), ∃ t, exec (.sub x y) s = .next t ∧
    let flag := if (s.getV x).toNat ≥ (s.getV y).toNat then 1 else 0
    let a := if x = Reg.flag then flag else (s.getV x).toNat
    let b := if y = Reg.flag then flag else (s.getV y).toNat
    (t.getV x).toNat = (a + 256 - b) % 256 ∧ (x ≠ Reg.flag → (t.getV Reg.flag).toNat = flag) ∧
    t.pc = s.pc + 2 ∧ ChangesOnly [.pc, .v x, .v Reg.flag] s t

/-- R140: the same with the operands of the subtraction reversed. -/
def Obligations.ReverseSubtractWritesFlagThenDifference : Prop :=
  ∀ (s : State) (x y : Reg), ∃ t, exec (.subn x y) s = .next t ∧
    let flag := if (s.getV y).toNat ≥ (s.getV x).toNat then 1 else 0
    let a := if x = Reg.flag then flag else (s.getV x).toNat
    let b := if y = Reg.flag then flag else (s.getV y).toNat
    (t.getV x).toNat = (b + 256 - a) % 256 ∧ (x ≠ Reg.flag → (t.getV Reg.flag).toNat = flag) ∧
    t.pc = s.pc + 2 ∧ ChangesOnly [.pc, .v x, .v Reg.flag] s t

/-- R139, R141: VF is the bit shifted out of V[X], then V[X] is shifted as the flag write left it; Y plays no part. -/
def Obligations.ShiftsWriteBitOutThenShift : Prop :=
  ∀ (s : State) (x y : Reg),
    (∃ t, exec (.shr x y) s = .next t ∧
      (let flag := (s.getV x).toNat % 2
       (t.getV x).toNat = (if x = Reg.flag then flag else (s.getV x).toNat) / 2 ∧
       (x ≠ Reg.flag → (t.getV Reg.flag).toNat = flag)) ∧
      t.pc = s.pc + 2 ∧ ChangesOnly [.pc, .v x, .v Reg.flag] s t) ∧
    (∃ t, exec (.shl x y) s = .next t ∧
      (let flag := (s.getV x).toNat / 128
       (t.getV x).toNat = 2 * (if x = Reg.flag then flag else (s.getV x).toNat) % 256 ∧
       (x ≠ Reg.flag → (t.getV Reg.flag).toNat = flag)) ∧
      t.pc = s.pc + 2 ∧ ChangesOnly [.pc, .v x, .v Reg.flag] s t)

/-- R143: every cell of the table of final values where X or Y names VF, in terms of the values before the step. -/
def Obligations.FlagAliasTable : Prop :=
  ∀ (s : State) (x y : Reg), x ≠ Reg.flag → y ≠ Reg.flag →
    let F := Reg.flag
    let f := (s.getV F).toNat
    let vx := (s.getV x).toNat
    let vy := (s.getV y).toNat
    let ge (a b : Nat) : Nat := if a ≥ b then 1 else 0
    (∃ t, exec (.addReg F y) s = .next t ∧ (t.getV F).toNat = (f + vy) % 256) ∧
    (∃ t, exec (.addReg x F) s = .next t ∧ (t.getV F).toNat = if vx + f > 255 then 1 else 0) ∧
    (∃ t, exec (.addReg F F) s = .next t ∧ (t.getV F).toNat = 2 * f % 256) ∧
    (∃ t, exec (.sub F y) s = .next t ∧ (t.getV F).toNat = (ge f vy + 256 - vy) % 256) ∧
    (∃ t, exec (.sub x F) s = .next t ∧ (t.getV F).toNat = ge vx f ∧ (t.getV x).toNat = (vx + 256 - ge vx f) % 256) ∧
    (∃ t, exec (.sub F F) s = .next t ∧ (t.getV F).toNat = 0) ∧
    (∃ t, exec (.shr F y) s = .next t ∧ (t.getV F).toNat = 0) ∧
    (∃ t, exec (.shr x F) s = .next t ∧ (t.getV F).toNat = vx % 2) ∧
    (∃ t, exec (.shr F F) s = .next t ∧ (t.getV F).toNat = 0) ∧
    (∃ t, exec (.subn F y) s = .next t ∧ (t.getV F).toNat = (vy + 256 - ge vy f) % 256) ∧
    (∃ t, exec (.subn x F) s = .next t ∧ (t.getV F).toNat = ge f vx ∧ (t.getV x).toNat = (ge f vx + 256 - vx) % 256) ∧
    (∃ t, exec (.subn F F) s = .next t ∧ (t.getV F).toNat = 0) ∧
    (∃ t, exec (.shl F y) s = .next t ∧ (t.getV F).toNat = 2 * (f / 128)) ∧
    (∃ t, exec (.shl x F) s = .next t ∧ (t.getV F).toNat = vx / 128) ∧
    (∃ t, exec (.shl F F) s = .next t ∧ (t.getV F).toNat = 2 * (f / 128))

/-- R151: V[X] is one byte ANDed with NN, so its bits outside NN are 0; the next draw is a fresh one. THE MODEL'S CHOICE
(log entry 2): the byte is the free value Config.freeByte at the draw counter; the statement holds for every byte. -/
def Obligations.RandomByteIsMasked : Prop :=
  ∀ (s : State) (x : Reg) (nn : Byte), ∃ t, exec (.rnd x nn) s = .next t ∧
    t.getV x = Config.freeByte s.rndDraws &&& nn ∧
    (∀ k, nn.getLsbD k = false → (t.getV x).getLsbD k = false) ∧
    t.rndDraws = s.rndDraws + 1 ∧ t.pc = s.pc + 2 ∧ ChangesOnly [.pc, .v x, .rndDraws] s t

/-! ### Index register and memory blocks -/

/-- R161, R162, R163: I gets NNN; I + V[X] mod 0x10000 with no flag; V[X] * 5, not masked. -/
def Obligations.IndexRegisterWrites : Prop :=
  ∀ (s : State) (x : Reg) (nnn : Word),
    (∃ t, exec (.ldI nnn) s = .next t ∧ t.i = nnn ∧ t.pc = s.pc + 2 ∧ ChangesOnly [.pc, .i] s t) ∧
    (∃ t, exec (.addI x) s = .next t ∧ t.i.toNat = (s.i.toNat + (s.getV x).toNat) % 0x10000 ∧ t.pc = s.pc + 2 ∧
      ChangesOnly [.pc, .i] s t) ∧
    (∃ t, exec (.ldF x) s = .next t ∧ t.i.toNat = (s.getV x).toNat * 5 ∧ t.pc = s.pc + 2 ∧
      ChangesOnly [.pc, .i] s t)

/-- R164: the decimal digits of V[X] go to I, I + 1, I + 2; a byte above 0xFFF or below 0x200 faults and nothing is
written. The premise is the invariant of MemoryCanonicalIsKept. -/
def Obligations.DecimalDigitsAreStored : Prop :=
  ∀ (s : State) (x : Reg), MemoryCanonical s →
    (0x200 ≤ s.i.toNat → s.i.toNat + 2 ≤ 0xFFF → ∃ t, exec (.ldB x) s = .next t ∧
      (Memory.read t.mem s.i.toNat).toNat = (s.getV x).toNat / 100 ∧
      (Memory.read t.mem (s.i.toNat + 1)).toNat = (s.getV x).toNat / 10 % 10 ∧
      (Memory.read t.mem (s.i.toNat + 2)).toNat = (s.getV x).toNat % 10 ∧
      t.pc = s.pc + 2 ∧ ChangesOnly (.pc :: memParts s.i.toNat 3) s t) ∧
    (0xFFF < s.i.toNat + 2 →
      TakesFault (.ldB x) s .memoryWrite (if s.i.toNat ≤ 0xFFF then 0x1000 else s.i)) ∧
    (s.i.toNat < 0x200 → TakesFault (.ldB x) s .lowMemoryWrite s.i)

/-- R165: V[0] to V[X] inclusive go to I to I + X and I is unchanged; a byte above 0xFFF or below 0x200 faults and
nothing is written. The premise is the invariant of MemoryCanonicalIsKept. -/
def Obligations.RegistersAreStored : Prop :=
  ∀ (s : State) (x : Reg), MemoryCanonical s →
    (0x200 ≤ s.i.toNat → s.i.toNat + x.toNat ≤ 0xFFF → ∃ t, exec (.stRegs x) s = .next t ∧
      (∀ k : Reg, k.toNat ≤ x.toNat → Memory.read t.mem (s.i.toNat + k.toNat) = s.getV k) ∧
      t.pc = s.pc + 2 ∧ ChangesOnly (.pc :: memParts s.i.toNat (x.toNat + 1)) s t) ∧
    (0xFFF < s.i.toNat + x.toNat →
      TakesFault (.stRegs x) s .memoryWrite (if s.i.toNat ≤ 0xFFF then 0x1000 else s.i)) ∧
    (s.i.toNat < 0x200 → TakesFault (.stRegs x) s .lowMemoryWrite s.i)

/-- R166: V[0] to V[X] inclusive come from I to I + X, below 0x200 too, and I is unchanged; a byte above 0xFFF faults
and no register is written. -/
def Obligations.RegistersAreLoaded : Prop :=
  ∀ (s : State) (x : Reg),
    (s.i.toNat + x.toNat ≤ 0xFFF → ∃ t, exec (.ldRegs x) s = .next t ∧
      (∀ k : Reg, k.toNat ≤ x.toNat → t.getV k = Memory.read s.mem (s.i.toNat + k.toNat)) ∧
      t.pc = s.pc + 2 ∧ ChangesOnly (.pc :: regParts x) s t) ∧
    (0xFFF < s.i.toNat + x.toNat →
      TakesFault (.ldRegs x) s .memoryRead (if s.i.toNat ≤ 0xFFF then 0x1000 else s.i))

/-- Registers stored by FX55 and loaded by FX65 with the same I and X come back: the pair changes pc and the stored
bytes only. -/
def Obligations.StoreThenLoadRestoresRegisters : Prop :=
  ∀ (s : State) (x : Reg), MemoryCanonical s → 0x200 ≤ s.i.toNat → s.i.toNat + x.toNat ≤ 0xFFF →
    ∃ t u, exec (.stRegs x) s = .next t ∧ exec (.ldRegs x) t = .next u ∧
      ChangesOnly (.pc :: memParts s.i.toNat (x.toNat + 1)) s u

/-- R57, R60: the one write primitive: it checks the top of memory first and then its bottom, and the byte it writes is
the only one that reads differently afterwards. -/
def Obligations.MemoryWritePrimitive : Prop :=
  ∀ (m : Memory) (a : Nat) (b : Byte), Memory.wf m →
    (0x200 ≤ a → a ≤ 0xFFF → ∃ n, writeBlock m a [b] = .ok n ∧ Memory.wf n ∧
      ∀ c, Memory.read n c = if c = a then b else Memory.read m c) ∧
    (0xFFF < a → writeBlock m a [b] = .error ⟨.memoryWrite, BitVec.ofNat 16 a⟩) ∧
    (a < 0x200 → writeBlock m a [b] = .error ⟨.lowMemoryWrite, BitVec.ofNat 16 a⟩)

/-- R66: a fetch sees the bytes FX55 stored, the word of V[0] and V[1] among them. -/
def Obligations.FetchSeesStoredBytes : Prop :=
  ∀ (s : State) (x : Reg), MemoryCanonical s → 0x200 ≤ s.i.toNat → s.i.toNat + x.toNat ≤ 0xFFF → 1 ≤ x.toNat →
    ∃ t, exec (.stRegs x) s = .next t ∧
      ∀ u : State, u.mem = t.mem → u.pc = s.i → u.fetch = .ok (wordOfBytes (s.getV 0) (s.getV 1))

/-! ### Display -/

/-- R181: CLS turns every pixel off; VF is unchanged. -/
def Obligations.ClearTurnsEveryPixelOff : Prop :=
  ∀ s : State, ∃ t, exec .cls s = .next t ∧ (∀ y x, Display.pixel t.disp y x = false) ∧ t.pc = s.pc + 2 ∧
    ChangesOnly [.pc, .disp] s t

/-- R182: every pixel is XORed with the sprite's bit there (the start wraps, the edges clip), VF is 1 when a set bit
meets a lit pixel and 0 otherwise; only drawn rows are read, and one of them above 0xFFF faults with nothing written. -/
def Obligations.DrawXorsSpriteAndReportsCollision : Prop :=
  ∀ (s : State) (x y : Reg) (n : Nat),
    let x0 := (s.getV x).toNat % 64
    let y0 := (s.getV y).toNat % 32
    let rows := min n (32 - y0)
    ((rows = 0 ∨ s.i.toNat + rows ≤ 0x1000) → ∃ t, exec (.drw x y n) s = .next t ∧
      (∀ py px, py < 32 → px < 64 → Display.pixel t.disp py px =
        xor (Display.pixel s.disp py px) (spriteBit s.mem s.i.toNat x0 y0 n py px)) ∧
      ((∃ py px, py < 32 ∧ px < 64 ∧ spriteBit s.mem s.i.toNat x0 y0 n py px = true ∧
          Display.pixel s.disp py px = true) → t.getV Reg.flag = 1) ∧
      ((∀ py px, py < 32 → px < 64 → spriteBit s.mem s.i.toNat x0 y0 n py px = true →
          Display.pixel s.disp py px = false) → t.getV Reg.flag = 0) ∧
      t.pc = s.pc + 2 ∧ ChangesOnly [.pc, .v Reg.flag, .disp] s t) ∧
    (rows ≠ 0 → 0x1000 < s.i.toNat + rows →
      TakesFault (.drw x y n) s .memoryRead (if s.i.toNat ≤ 0xFFF then 0x1000 else s.i))

/-- R183, second and third property: final VF is 1 exactly when a pixel went from 1 to 0, and the pixels that changed lie
in the rectangle of the sprite clipped at the edges. -/
def Obligations.CollisionIsAPixelTurnedOff : Prop :=
  ∀ (s t : State) (x y : Reg) (n : Nat), exec (.drw x y n) s = .next t → t.runState = s.runState →
    s.runState = .running →
    (t.getV Reg.flag = 1 ↔ ∃ py px, Display.pixel s.disp py px = true ∧ Display.pixel t.disp py px = false) ∧
    ∀ py px, Display.pixel t.disp py px ≠ Display.pixel s.disp py px →
      (s.getV x).toNat % 64 ≤ px ∧ px ≤ min ((s.getV x).toNat % 64 + 7) 63 ∧
      (s.getV y).toNat % 32 ≤ py ∧ py + 1 ≤ min ((s.getV y).toNat % 32 + n) 32

/-- Two draws of the same sprite at the same place (X and Y not F, or the first draw's flag moves the second) restore every
pixel, and the second collides exactly when a set bit inside the display stands on a pixel that was off at the start. THE
MODEL'S READING (log entry 12, DEDUCED): it follows from the pseudocode of R182; the clause on the second VF differs from the
words of R183's first property, which SecondDrawAlwaysCollides states. -/
def Obligations.DrawTwiceRestoresDisplay : Prop :=
  ∀ (s : State) (x y : Reg) (n : Nat), x ≠ Reg.flag → y ≠ Reg.flag → s.i.toNat + n ≤ 0x1000 →
    ∃ t u, exec (.drw x y n) s = .next t ∧ exec (.drw x y n) t = .next u ∧ u.disp = s.disp ∧
      (u.getV Reg.flag = 1 ↔ ∃ py px, py < 32 ∧ px < 64 ∧ Display.pixel s.disp py px = false ∧
        spriteBit s.mem s.i.toNat ((s.getV x).toNat % 64) ((s.getV y).toNat % 32) n py px = true) ∧
      ChangesOnly [.pc, .v Reg.flag] s u

/-- R183, first property, as its words read: the second of two identical draws collides exactly when the sprite has a set
bit inside the display. EXPECTED TO FAIL (log entry 12): where every set bit stands on a lit pixel, the first draw turns
them all off, R183's "each such pixel was lit by the first draw" is false, and R182 gives VF = 0 at the second. -/
def Obligations.SecondDrawAlwaysCollides : Prop :=
  ∀ (s : State) (x y : Reg) (n : Nat), x ≠ Reg.flag → y ≠ Reg.flag → s.i.toNat + n ≤ 0x1000 →
    ∃ t u, exec (.drw x y n) s = .next t ∧ exec (.drw x y n) t = .next u ∧ u.disp = s.disp ∧
      (u.getV Reg.flag = 1 ↔ ∃ py px, py < 32 ∧ px < 64 ∧
        spriteBit s.mem s.i.toNat ((s.getV x).toNat % 64) ((s.getV y).toNat % 32) n py px = true)

/-- R183, fourth property: the display and VF a draw leaves depend on the display, V[X], V[Y], N and Mem[I .. I + N - 1]
only, whatever else differs between two states. -/
def Obligations.DrawDependsOnItsInputsOnly : Prop :=
  ∀ (s s' : State) (x y : Reg) (n : Nat), s.disp = s'.disp → s.getV x = s'.getV x → s.getV y = s'.getV y →
    (∀ k, k < n → Memory.read s.mem (s.i.toNat + k) = Memory.read s'.mem (s'.i.toNat + k)) →
    s.i.toNat + n ≤ 0x1000 → s'.i.toNat + n ≤ 0x1000 →
    ∃ t t', exec (.drw x y n) s = .next t ∧ exec (.drw x y n) s' = .next t' ∧
      t.disp = t'.disp ∧ t.getV Reg.flag = t'.getV Reg.flag

/-! ### Keypad and timers -/

/-- R200, R201, R202: the key skips read the level of key V[X]; a V[X] above 0xF takes KeyIndexFault. -/
def Obligations.KeySkipsReadTheLatch : Prop :=
  ∀ (s : State) (x : Reg),
    (∀ k : Fin 16, (s.getV x).toNat = k.val →
      (∃ t, exec (.skp x) s = .next t ∧ t.pc = (if s.keys[k] = true then s.pc + 4 else s.pc + 2) ∧
        ChangesOnly [.pc] s t) ∧
      (∃ t, exec (.sknp x) s = .next t ∧ t.pc = (if s.keys[k] = true then s.pc + 2 else s.pc + 4) ∧
        ChangesOnly [.pc] s t)) ∧
    (0xF < (s.getV x).toNat →
      TakesFault (.skp x) s .keyIndex ((s.getV x).setWidth 16) ∧
      TakesFault (.sknp x) s .keyIndex ((s.getV x).setWidth 16))

/-- R203, R205, R206: the timer instructions move one byte. -/
def Obligations.TimersAreReadAndWritten : Prop :=
  ∀ (s : State) (x : Reg),
    (∃ t, exec (.ldVxDt x) s = .next t ∧ t.getV x = s.dt ∧ t.pc = s.pc + 2 ∧ ChangesOnly [.pc, .v x] s t) ∧
    (∃ t, exec (.ldDtVx x) s = .next t ∧ t.dt = s.getV x ∧ t.pc = s.pc + 2 ∧ ChangesOnly [.pc, .dt] s t) ∧
    (∃ t, exec (.ldStVx x) s = .next t ∧ t.st = s.getV x ∧ t.pc = s.pc + 2 ∧ ChangesOnly [.pc, .st] s t)

/-- R204: with no key pressed pc stays at the instruction and KeyWait is 1; otherwise V[X] is a pressed key, KeyWait is
0 and execution proceeds. Which pressed key is the free choice of log entry 3; the statement holds for every choice. -/
def Obligations.KeyWaitRewindsOrTakesAPressedKey : Prop :=
  ∀ (s : State) (x : Reg),
    ((∀ k : Fin 16, s.keys[k] = false) →
      ∃ t, exec (.ldVxK x) s = .next t ∧ t.pc = s.pc ∧ t.keyWait = true ∧ ChangesOnly [.keyWait] s t) ∧
    (∀ q : Fin 16, s.keys[q] = true →
      ∃ t, exec (.ldVxK x) s = .next t ∧ (∃ k : Fin 16, s.keys[k] = true ∧ (t.getV x).toNat = k.val) ∧
        t.pc = s.pc + 2 ∧ t.keyWait = false ∧ ChangesOnly [.pc, .v x, .keyWait, .keyPicks] s t)

/-! ### Rules of the whole machine -/

/-- Every instruction either changes only the parts the spec lets it write, or takes one of the faults R224 allows it. -/
def Obligations.EveryInstructionKeepsItsFrame : Prop :=
  ∀ (i : Instr) (s : State), MemoryCanonical s →
    (∃ t, exec i s = .next t ∧ ChangesOnly (writtenParts s i) s t) ∨
    (∃ cause info, canRaise i cause = true ∧ TakesFault i s cause info)

/-- R224: after its fetch a step can fault only by a cause R224 gives its instruction; every other step leaves RunState
and FaultRec alone, an unknown opcode's among them. -/
def Obligations.OnlyListedInstructionsFault : Prop :=
  ∀ s t : State, s.runState = .running → step s = .next t → t.runState = .running ∧ t.faultRec = s.faultRec ∨
    t.runState = .faulted ∧ ((0xFFF < s.pc.toNat + 1 ∧ t.faultRec.map (·.cause) = some .memoryFetch) ∨
      ∃ i c, decodeWord (wordAt s s.pc.toNat) = .ok i ∧ t.faultRec.map (·.cause) = some c ∧ canRaise i c = true)

/-- R222: a step that faults leaves the state from before it but for FaultRec and RunState, FaultRec holding pc and the
fetched word (none for a fetch fault); and no later interaction of any kind changes FaultRec or RunState. -/
def Obligations.FaultsArePreciseAndTerminal : Prop :=
  ∀ s t : State, s.runState = .running → step s = .next t → t.runState ≠ .running →
    (∃ cause info, t = { s with
      runState := .faulted
      faultRec := some { cause := cause, pc := s.pc, info := info
                         opcode := if 0xFFF < s.pc.toNat + 1 then none else some (wordAt s s.pc.toNat) } }) ∧
    ∀ es, ∃ u, interactAll es t = .next u ∧ u.runState = .faulted ∧ u.faultRec = t.faultRec

/-- R220, R232, R233: the transitions of RunState, and no others, over every interaction with the core; initialize gives
Running. -/
def Obligations.RunStateTransitions : Prop :=
  (∀ image s, initializeCore image = .ok s → s.runState = .running) ∧
  ∀ (e : Interaction) (s : State), ∃ t, interact e s = .next t ∧
    match s.runState, e with
    | .running, .pause => t.runState = .paused ∧ ChangesOnly [.runState] s t
    | .paused, .resume => t.runState = .running ∧ ChangesOnly [.runState] s t
    | .running, .quit | .paused, .quit => t.runState = .haltedQuit ∧ ChangesOnly [.runState] s t
    | .running, .step => t.runState = .running ∨ t.runState = .faulted
    | _, _ => t.runState = s.runState

/-- In Halted(Quit) and Faulted any schedule of interactions changes nothing but the keypad latch (R220, R221, R236,
R239). -/
def Obligations.TerminalStatesAreFrozen : Prop :=
  ∀ (s : State) (es : List Interaction), s.runState = .haltedQuit ∨ s.runState = .faulted →
    ∃ t, interactAll es s = .next t ∧ ChangesOnly [.keys] s t

/-- R31, R37: no instruction reads the sound timer and none reads KeyWait: two runs of an instruction that differ in them
only end in states that differ in them at most. -/
def Obligations.SoundTimerAndKeyWaitAreNotRead : Prop :=
  ∀ (i : Instr) (s t : State) (b : Byte) (w : Bool), exec i s = .next t →
    ∃ t', exec i { s with st := b, keyWait := w } = .next t' ∧ ChangesOnly [.st, .keyWait] t t'

/-! ### Invariants -/

/-- The canonical form of memory is kept by every step, from every state that has it. -/
def Obligations.MemoryCanonicalIsKept : Prop :=
  ∀ s t : State, MemoryCanonical s → step s = .next t → MemoryCanonical t

/-- R56: no step writes below the program-load address: font and zero area stay as initialize left them. -/
def Obligations.LowMemoryIsNeverWritten : Prop :=
  ∀ s t : State, MemoryCanonical s → LowMemoryIntact s → step s = .next t → LowMemoryIntact t

/-- R82: pc never exceeds 0x10FE and never wraps; with it the bounds of the stack and its entries (R28, R110). -/
def Obligations.PcAndStackStayBounded : Prop :=
  ∀ s t : State, PcAndStackBounded s → step s = .next t → PcAndStackBounded t

/-- R37: KeyWait is 1 only while the instruction at pc is the FX0A that found no key. -/
def Obligations.KeyWaitStaysAtItsInstruction : Prop :=
  ∀ s t : State, KeyWaitAtWait s → step s = .next t → KeyWaitAtWait t

/-- All invariants hold after every successful initialize. -/
def Obligations.InitializeEstablishesInvariants : Prop :=
  Inv State.reset ∧ ∀ image s, initializeCore image = .ok s → Inv s

/-- Every interaction keeps all invariants, from every state that has them; so they hold after every schedule of the host
from every initialize. -/
def Obligations.EveryScheduleKeepsInvariants : Prop :=
  (∀ (e : Interaction) (s t : State), Inv s → interact e s = .next t → Inv t) ∧
  ∀ (image : List Byte) (es : List Interaction) (s : State), initializeCore image = .ok s →
    ∃ t, interactAll es s = .next t ∧ Inv t

/-! ### Reset and the host interface -/

/-- R260, R261: initialize zeroes the registers, timers, stack, display and latch, loads FONT (the parameter, whatever its
bytes), the zero area and the image, zero after it, pc = 0x200, Running; an image above 3584 bytes builds nothing. -/
def Obligations.InitializeBuildsTheResetState : Prop :=
  ∀ image : List Byte,
    (image.length ≤ 3584 → ∃ s, initializeCore image = .ok s ∧
      (∀ r, s.getV r = 0) ∧ s.i = 0 ∧ s.dt = 0 ∧ s.st = 0 ∧ s.stack = [] ∧ s.pc = 0x200 ∧ s.runState = .running ∧
      s.faultRec = none ∧ s.keyWait = false ∧ (∀ k : Fin 16, s.keys[k] = false) ∧
      (∀ y x, Display.pixel s.disp y x = false) ∧
      ∀ a, a ≤ 0xFFF → Memory.read s.mem a =
        if a < 80 then font.getD a 0 else if a < 0x200 then 0 else image.getD (a - 0x200) 0) ∧
    (3584 < image.length → initializeCore image = .error .programTooLarge)

/-- R235, R236: a tick decrements each timer toward 0 when Running and does nothing otherwise. -/
def Obligations.TickCountsDownWhenRunning : Prop :=
  ∀ s : State,
    (s.runState = .running → (tick s).dt.toNat = s.dt.toNat - 1 ∧ (tick s).st.toNat = s.st.toNat - 1 ∧
      ChangesOnly [.dt, .st] s (tick s)) ∧
    (s.runState ≠ .running → tick s = s)

/-- R239, R242, R238: a latch write replaces the 16 levels in any RunState and touches nothing else; the status outputs
are the state's, and tone is (ST != 0). -/
def Obligations.LatchAndStatusPorts : Prop :=
  ∀ (s : State) (levels : KeyLevels),
    (latchKeys levels s).keys = levels ∧ ChangesOnly [.keys] s (latchKeys levels s) ∧
    (status s).runState = s.runState ∧ (status s).faultRec = s.faultRec ∧ (status s).keyWait = s.keyWait ∧
    ((status s).tone = true ↔ s.st.toNat ≠ 0)

/-- R270: a frame latches the keys, runs IPF steps, then ticks once if the core is still Running, then checks the quit
signal; a fault ends the frame's remaining steps and its tick. -/
def Obligations.FrameRunsStepsThenOneTick : Prop :=
  ∀ (s : State) (levels : KeyLevels) (ipf : Nat) (q : Bool),
    ∃ u, interactAll (List.replicate ipf .step) (latchKeys levels s) = .next u ∧
      frame ipf levels q s = .next (if q then quit (tick u) else tick u) ∧ (u.runState ≠ .running → tick u = u)

/-- R249: from a state that is done, every further step leaves all state unchanged, and ticks among the steps change the
timers only. -/
def Obligations.DoneStateOnlyTicks : Prop :=
  ∀ s : State, done s = true → step s = .next s ∧
    ∀ es, (∀ e ∈ es, e = .step ∨ e = .tick) →
      ∃ t, interactAll es s = .next t ∧ done t = true ∧ ChangesOnly [.dt, .st] s t
end

