-- ==== Sys2Proof/Laws/Decode.lean ====
section
/-! SUPPORT. The opcode map selects at most one row (spec/30_encoding.md R73); the fields and masked nibbles of the words
the encoder builds; what a masked word is as a number. -/

namespace Sys2Proof

/-! ### Masks as arithmetic -/

theorem toNat_and_top (w : Word) : (w &&& 0xF000#16).toNat = w.toNat / 4096 * 4096 := by
  have h : w &&& 0xF000#16 = (w >>> 12) <<< 12 := by
    apply BitVec.eq_of_getLsbD_eq
    intro i hi
    interval_cases i <;> simp
  have := w.isLt
  rw [h]
  simp [BitVec.toNat_shiftLeft, Nat.shiftLeft_eq, Nat.shiftRight_eq_div_pow]
  omega

theorem toNat_and_nibble (w : Word) : (w &&& 0x000F#16).toNat = w.toNat % 16 := by
  rw [BitVec.toNat_and]
  exact Nat.and_two_pow_sub_one_eq_mod w.toNat 4

theorem toNat_and_byte (w : Word) : (w &&& 0x00FF#16).toNat = w.toNat % 256 := by
  rw [BitVec.toNat_and]
  exact Nat.and_two_pow_sub_one_eq_mod w.toNat 8

theorem toNat_and_or (w a b : Word) (h : a &&& b = 0#16) :
    (w &&& (a ||| b)).toNat = (w &&& a).toNat + (w &&& b).toNat := by
  have h1 : w &&& (a ||| b) = (w &&& a) ||| (w &&& b) := by
    apply BitVec.eq_of_getLsbD_eq
    intro i _
    simp [Bool.and_or_distrib_left]
  have h2 : (w &&& a) &&& (w &&& b) = 0#16 := by
    rw [BitVec.and_comm w b, BitVec.and_assoc, ← BitVec.and_assoc a b w, h]
    simp
  rw [h1, ← BitVec.add_eq_or_of_and_eq_zero _ _ h2, BitVec.toNat_add_of_and_eq_zero h2]

theorem toNat_and_top_nibble (w : Word) : (w &&& 0xF00F#16).toNat = w.toNat / 4096 * 4096 + w.toNat % 16 := by
  rw [← toNat_and_top, ← toNat_and_nibble, ← toNat_and_or w 0xF000#16 0x000F#16 (by decide)]
  rfl

theorem toNat_and_top_byte (w : Word) : (w &&& 0xF0FF#16).toNat = w.toNat / 4096 * 4096 + w.toNat % 256 := by
  rw [← toNat_and_top, ← toNat_and_byte, ← toNat_and_or w 0xF000#16 0x00FF#16 (by decide)]
  rfl

theorem and_all (w : Word) : w &&& 0xFFFF#16 = w := BitVec.and_allOnes

/-! ### Fields as arithmetic (R70) -/

theorem toNat_fieldX (w : Word) : (fieldX w).toNat = w.toNat / 256 % 16 := by
  simp [fieldX, BitVec.extractLsb'_toNat, Nat.shiftRight_eq_div_pow]

theorem toNat_fieldY (w : Word) : (fieldY w).toNat = w.toNat / 16 % 16 := by
  simp [fieldY, BitVec.extractLsb'_toNat, Nat.shiftRight_eq_div_pow]

theorem fieldN_eq (w : Word) : fieldN w = w.toNat % 16 := by
  simp [fieldN, BitVec.extractLsb'_toNat]

theorem toNat_fieldNN (w : Word) : (fieldNN w).toNat = w.toNat % 256 := by
  simp [fieldNN, BitVec.extractLsb'_toNat]

theorem toNat_fieldNNN (w : Word) : (fieldNNN w).toNat = w.toNat % 4096 := by
  simp [fieldNNN, BitVec.extractLsb'_toNat]
  omega

theorem toNat_highByte (w : Word) : (highByte w).toNat = w.toNat / 256 := by
  have := w.isLt
  simp [highByte, BitVec.extractLsb'_toNat, Nat.shiftRight_eq_div_pow]
  omega

theorem toNat_lowByte (w : Word) : (lowByte w).toNat = w.toNat % 256 := by
  simp [lowByte, BitVec.extractLsb'_toNat]

/-- A word is its high byte then its low byte (R52). -/
@[simp] theorem wordOfBytes_bytes (w : Word) : wordOfBytes (highByte w) (lowByte w) = w := by
  apply BitVec.eq_of_toNat_eq
  have := w.isLt
  simp only [wordOfBytes, BitVec.toNat_ofNat, toNat_highByte, toNat_lowByte]
  omega

/-! ### The words the encoder builds -/

theorem toNat_wordNNN (op : Nat) (nnn : Word) (hop : op < 16) (h : fitsNNN nnn = true) :
    (wordNNN op nnn).toNat = op * 4096 + nnn.toNat := by
  have := of_decide_eq_true h
  simp only [wordNNN, BitVec.toNat_ofNat]
  omega

theorem toNat_wordXNN (op : Nat) (x : Reg) (nn : Byte) (hop : op < 16) :
    (wordXNN op x nn).toNat = op * 4096 + x.toNat * 256 + nn.toNat := by
  have := x.isLt
  have := nn.isLt
  simp only [wordXNN, BitVec.toNat_ofNat]
  omega

theorem toNat_wordXYN (op : Nat) (x y : Reg) (n : Nat) (hop : op < 16) (hn : n ≤ 15) :
    (wordXYN op x y n).toNat = op * 4096 + x.toNat * 256 + y.toNat * 16 + n := by
  have := x.isLt
  have := y.isLt
  simp only [wordXYN, BitVec.toNat_ofNat]
  omega

/-! ### The encoder's fields read back (R70) -/

theorem fieldNNN_wordNNN (op : Nat) (nnn : Word) (hop : op < 16) (h : fitsNNN nnn = true) :
    fieldNNN (wordNNN op nnn) = nnn := by
  have := of_decide_eq_true h
  apply BitVec.eq_of_toNat_eq
  rw [toNat_fieldNNN, toNat_wordNNN op nnn hop h]
  omega

theorem fieldX_wordXNN (op : Nat) (x : Reg) (nn : Byte) (hop : op < 16) : fieldX (wordXNN op x nn) = x := by
  have := x.isLt
  have := nn.isLt
  apply BitVec.eq_of_toNat_eq
  rw [toNat_fieldX, toNat_wordXNN op x nn hop]
  omega

theorem fieldNN_wordXNN (op : Nat) (x : Reg) (nn : Byte) (hop : op < 16) : fieldNN (wordXNN op x nn) = nn := by
  have := nn.isLt
  apply BitVec.eq_of_toNat_eq
  rw [toNat_fieldNN, toNat_wordXNN op x nn hop]
  omega

theorem fieldX_wordXYN (op : Nat) (x y : Reg) (n : Nat) (hop : op < 16) (hn : n ≤ 15) :
    fieldX (wordXYN op x y n) = x := by
  have := x.isLt
  have := y.isLt
  apply BitVec.eq_of_toNat_eq
  rw [toNat_fieldX, toNat_wordXYN op x y n hop hn]
  omega

theorem fieldY_wordXYN (op : Nat) (x y : Reg) (n : Nat) (hop : op < 16) (hn : n ≤ 15) :
    fieldY (wordXYN op x y n) = y := by
  have := x.isLt
  have := y.isLt
  apply BitVec.eq_of_toNat_eq
  rw [toNat_fieldY, toNat_wordXYN op x y n hop hn]
  omega

theorem fieldN_wordXYN (op : Nat) (x y : Reg) (n : Nat) (hop : op < 16) (hn : n ≤ 15) :
    fieldN (wordXYN op x y n) = n := by
  rw [fieldN_eq, toNat_wordXYN op x y n hop hn]
  omega

/-! ### At most one row selects a word (R73) -/

/-- Any two rows differ on a bit both of them fix. -/
theorem opcodeRows_disjoint :
    opcodeRows.Pairwise fun r q => r.pattern &&& q.mask ≠ q.pattern &&& r.mask := by decide

/-- Two rows that differ on a bit both fix do not select the same word. -/
theorem OpcodeRow.not_both (r q : OpcodeRow) (h : r.pattern &&& q.mask ≠ q.pattern &&& r.mask) (w : Word)
    (hr : r.selects w = true) : q.selects w = false := by
  by_contra hq
  simp only [OpcodeRow.selects, beq_iff_eq, Bool.not_eq_false] at hr hq
  apply h
  rw [← hr, ← hq, BitVec.and_assoc, BitVec.and_assoc, BitVec.and_comm r.mask]

/-- In a list of pairwise different rows, the row that selects a word is the one found. -/
theorem find_row (rows : List OpcodeRow)
    (hd : rows.Pairwise fun r q => r.pattern &&& q.mask ≠ q.pattern &&& r.mask) (r : OpcodeRow) (hr : r ∈ rows)
    (w : Word) (h : r.selects w = true) : rows.find? (·.selects w) = some r := by
  induction rows with
  | nil => simp at hr
  | cons q rest ih =>
    obtain ⟨hq, hrest⟩ := List.pairwise_cons.1 hd
    rcases List.mem_cons.1 hr with rfl | hmem
    · simp [h]
    · have hno : q.selects w = false := by
        by_contra hq'
        have := OpcodeRow.not_both q r (hq r hmem) w (by simpa using hq')
        simp [this] at h
      rw [List.find?_cons, hno]
      exact ih hrest hmem

/-- A word that a row of the map selects decodes by that row. -/
theorem decodeWord_of_row (r : OpcodeRow) (hr : r ∈ opcodeRows) (w : Word) (h : r.selects w = true) :
    decodeWord w = .ok (r.build w) := by
  rw [decodeWord, find_row opcodeRows opcodeRows_disjoint r hr w h]

/-- Everything the decoder can do: a row of the map selects the word and builds the instruction, or no row does. -/
theorem decodeWord_cases (w : Word) :
    (∃ r ∈ opcodeRows, r.selects w = true ∧ decodeWord w = .ok (r.build w)) ∨
    ((∀ r ∈ opcodeRows, r.selects w = false) ∧ decodeWord w = .error (.unknownOpcode w)) := by
  unfold decodeWord
  cases h : opcodeRows.find? (·.selects w) with
  | none => exact .inr ⟨by simpa using h, rfl⟩
  | some r => exact .inl ⟨r, List.mem_of_find?_eq_some h, by simpa using List.find?_some h, rfl⟩

/-- A two-byte sequence decodes as its word. -/
theorem decode_pair (hi lo : Byte) (rest : List Byte) :
    decode (hi :: lo :: rest) =
      match decodeWord (wordOfBytes hi lo) with
      | .ok i => .ok (i, rest)
      | .error e => .error e := rfl

end Sys2Proof
end

