-- ==== Sys2Proof/Laws/Display.lean ====
section
/-! SUPPORT. What the sprite pipeline does to each pixel and to the collision flag: the loops of spec/43_display.md R182 in
closed form, one row and then all rows. -/

namespace Sys2Proof.Machine

/-- Every pixel of the blank display is off. -/
theorem Display.pixel_blank (y x : Nat) : Display.pixel Display.blank y x = false := by
  unfold Display.pixel Display.blank
  by_cases hy : y < 32
  · by_cases hx : x < 64 <;> simp [hy, hx]
  · simp [hy]

/-- A pixel outside the buffer reads as off. -/
theorem Display.pixel_outside (d : Display) (y x : Nat) (h : 32 ≤ y ∨ 64 ≤ x) : Display.pixel d y x = false := by
  unfold Display.pixel
  by_cases hy : y < 32
  · have hx : ¬ x < 64 := by omega
    simp [hy, hx]
  · simp [hy]

/-- Two displays with the same pixels are equal. -/
theorem Display.ext_pixel (d e : Display) (h : ∀ y x, y < 32 → x < 64 → Display.pixel d y x = Display.pixel e y x) :
    d = e := by
  refine Vector.ext fun y hy => Vector.ext fun x hx => ?_
  simpa [Display.pixel, hy, hx] using h y x hy hx

/-- A pixel reads its new value, every other its old one. -/
theorem Display.pixel_setPixel (d : Display) (y x : Nat) (b : Bool) (hy : y < 32) (hx : x < 64) (y' x' : Nat) :
    Display.pixel (Display.setPixel d y x b) y' x' = if y' = y ∧ x' = x then b else Display.pixel d y' x' := by
  have hrow : d[y]? = some d[y] := by simp [hy]
  unfold Display.setPixel
  rw [hrow]
  unfold Display.pixel
  by_cases hy' : y' = y
  · subst hy'
    by_cases hx' : x' = x
    · subst hx'; simp [hy, hx]
    · simp [hy, hx', Ne.symm hx']
  · simp [Ne.symm hy', hy']

/-- One blended pixel: XOR there, nothing elsewhere. -/
theorem Canvas.pixel_blend (c : Canvas) (y x : Nat) (bit : Bool) (hy : y < 32) (hx : x < 64) (y' x' : Nat) :
    Display.pixel (c.blend y x bit).disp y' x' =
      xor (Display.pixel c.disp y' x') (decide (y' = y ∧ x' = x) && bit) := by
  rw [Canvas.blend, Display.pixel_setPixel _ _ _ _ hy hx]
  by_cases h : y' = y ∧ x' = x
  · obtain ⟨rfl, rfl⟩ := h; simp
  · simp [h]

/-- Columns k to k + n - 1 of one row: each pixel inside the display is XORed with its sprite bit, nothing else. -/
theorem Canvas.pixel_drawColumns (b : Byte) (y x0 : Nat) (hy : y < 32) (n : Nat) : ∀ (c : Canvas) (k y' x' : Nat),
    Display.pixel (c.drawColumns b y x0 (List.range' k n)).disp y' x' =
      xor (Display.pixel c.disp y' x')
        (decide (y' = y ∧ x0 + k ≤ x' ∧ x' < x0 + k + n ∧ x' < 64) && b.getLsbD (7 - (x' - x0))) := by
  induction n with
  | zero =>
    intro c k y' x'
    have : ¬ (y' = y ∧ x0 + k ≤ x' ∧ x' < x0 + k + 0 ∧ x' < 64) := by omega
    rw [decide_eq_false this]
    simp [Canvas.drawColumns]
  | succ n ih =>
    intro c k y' x'
    rw [List.range'_succ, Canvas.drawColumns]
    by_cases hx : Config.dispW ≤ x0 + k
    · have : ¬ (y' = y ∧ x0 + k ≤ x' ∧ x' < x0 + k + (n + 1) ∧ x' < 64) := by simp [Config.dispW] at hx; omega
      simp [hx, this]
    · simp only [hx, if_false]
      have hx' : x0 + k < 64 := by simpa [Config.dispW] using hx
      rw [ih, Canvas.pixel_blend _ _ _ _ hy hx', Bool.xor_assoc]
      congr 1
      by_cases h1 : y' = y ∧ x' = x0 + k
      · obtain ⟨rfl, rfl⟩ := h1
        have h2 : ¬ (x0 + (k + 1) ≤ x0 + k) := by omega
        simp [hx', h2]
      · have h3 : (y' = y ∧ x0 + (k + 1) ≤ x' ∧ x' < x0 + (k + 1) + n ∧ x' < 64) ↔
            (y' = y ∧ x0 + k ≤ x' ∧ x' < x0 + k + (n + 1) ∧ x' < 64) := by omega
        simp [h1, h3]

/-- The collision flag of columns k to k + n - 1: set when it was, or when a set bit met a lit pixel of the display. -/
theorem Canvas.hit_drawColumns (b : Byte) (y x0 : Nat) (hy : y < 32) (n : Nat) : ∀ (c : Canvas) (k : Nat),
    (c.drawColumns b y x0 (List.range' k n)).hit = true ↔
      c.hit = true ∨ ∃ x', x0 + k ≤ x' ∧ x' < x0 + k + n ∧ x' < 64 ∧ b.getLsbD (7 - (x' - x0)) = true ∧
        Display.pixel c.disp y x' = true := by
  induction n with
  | zero =>
    intro c k
    simp only [List.range'_zero, Canvas.drawColumns]
    constructor
    · exact .inl
    · rintro (h | ⟨x', h⟩)
      · exact h
      · omega
  | succ n ih =>
    intro c k
    rw [List.range'_succ, Canvas.drawColumns]
    by_cases hx : Config.dispW ≤ x0 + k
    · simp only [hx, if_true]
      have hx' : 64 ≤ x0 + k := by simpa [Config.dispW] using hx
      constructor
      · exact .inl
      · rintro (h | ⟨x', h⟩)
        · exact h
        · omega
    · simp only [hx, if_false]
      have hx' : x0 + k < 64 := by simpa [Config.dispW] using hx
      rw [ih]
      have hhit : (c.blend y (x0 + k) (b.getLsbD (7 - k))).hit =
          (c.hit || (b.getLsbD (7 - k) && Display.pixel c.disp y (x0 + k))) := rfl
      have hother : ∀ x', x0 + k < x' →
          Display.pixel (c.blend y (x0 + k) (b.getLsbD (7 - k))).disp y x' = Display.pixel c.disp y x' := by
        intro x' h
        rw [Canvas.pixel_blend _ _ _ _ hy hx']
        have : ¬ (x' = x0 + k) := by omega
        simp [this]
      rw [hhit]
      constructor
      · rintro (h | ⟨x', h1, h2, h3, h4, h5⟩)
        · simp only [Bool.or_eq_true, Bool.and_eq_true] at h
          rcases h with h | ⟨h4, h5⟩
          · exact .inl h
          · exact .inr ⟨x0 + k, le_rfl, by omega, hx', by simpa using h4, h5⟩
        · exact .inr ⟨x', by omega, by omega, h3, h4, by rwa [← hother x' (by omega)]⟩
      · rintro (h | ⟨x', h1, h2, h3, h4, h5⟩)
        · exact .inl (by simp [h])
        · by_cases hk : x' = x0 + k
          · subst hk
            exact .inl (by simp only [Nat.add_sub_cancel_left] at h4; simp [h4, h5])
          · exact .inr ⟨x', by omega, by omega, h3, h4, by rwa [hother x' (by omega)]⟩

/-- The sprite bit of a list of row bytes at (x0, y0). -/
def bytesBit (bytes : List Byte) (x0 y0 y x : Nat) : Bool :=
  decide (y0 ≤ y ∧ y < y0 + bytes.length ∧ x0 ≤ x ∧ x < x0 + 8) && (bytes.getD (y - y0) 0).getLsbD (7 - (x - x0))

theorem bytesBit_nil (x0 y0 y x : Nat) : bytesBit [] x0 y0 y x = false := by
  simp [bytesBit]

theorem bytesBit_cons (b : Byte) (bs : List Byte) (x0 y0 y x : Nat) :
    bytesBit (b :: bs) x0 y0 y x =
      if y = y0 then decide (x0 ≤ x ∧ x < x0 + 8) && b.getLsbD (7 - (x - x0)) else bytesBit bs x0 (y0 + 1) y x := by
  by_cases h : y = y0
  · subst h; simp [bytesBit]
  · simp only [h, if_false, bytesBit, List.length_cons]
    by_cases h' : y0 < y
    · have hs : y - y0 = (y - (y0 + 1)) + 1 := by omega
      have hd : (y0 ≤ y ∧ y < y0 + (bs.length + 1) ∧ x0 ≤ x ∧ x < x0 + 8) ↔
          (y0 + 1 ≤ y ∧ y < y0 + 1 + bs.length ∧ x0 ≤ x ∧ x < x0 + 8) := by omega
      simp only [hd, hs, List.getD_cons_succ]
    · have h1 : ¬ (y0 ≤ y ∧ y < y0 + (bs.length + 1) ∧ x0 ≤ x ∧ x < x0 + 8) := by omega
      have h2 : ¬ (y0 + 1 ≤ y ∧ y < y0 + 1 + bs.length ∧ x0 ≤ x ∧ x < x0 + 8) := by omega
      rw [decide_eq_false h1, decide_eq_false h2, Bool.false_and, Bool.false_and]

/-- All rows: each pixel of the display is XORed with its sprite bit, nothing else (R182, R183). -/
theorem Canvas.pixel_drawRows (x0 : Nat) (bytes : List Byte) : ∀ (c : Canvas) (y0 : Nat), y0 + bytes.length ≤ 32 →
    ∀ y x, x < 64 → Display.pixel (c.drawRows x0 y0 bytes).disp y x =
      xor (Display.pixel c.disp y x) (bytesBit bytes x0 y0 y x) := by
  induction bytes with
  | nil => intro c y0 _ y x _; simp [Canvas.drawRows, bytesBit_nil]
  | cons b bs ih =>
    intro c y0 h y x hx
    simp only [List.length_cons] at h
    have hcols : ([0, 1, 2, 3, 4, 5, 6, 7] : List Nat) = List.range' 0 8 := rfl
    rw [Canvas.drawRows, ih _ _ (by omega) y x hx, hcols, Canvas.pixel_drawColumns b y0 x0 (by omega) 8,
      bytesBit_cons, Bool.xor_assoc]
    congr 1
    by_cases hy : y = y0
    · subst hy
      have hnot : bytesBit bs x0 (y + 1) y x = false := by
        simp [bytesBit]
      simp [hnot, hx]
    · simp [hy]

/-- The collision flag of all rows: set when it was, or when a set sprite bit met a lit pixel of the display. -/
theorem Canvas.hit_drawRows (x0 : Nat) (bytes : List Byte) : ∀ (c : Canvas) (y0 : Nat), y0 + bytes.length ≤ 32 →
    ((c.drawRows x0 y0 bytes).hit = true ↔ c.hit = true ∨
      ∃ y x, x < 64 ∧ bytesBit bytes x0 y0 y x = true ∧ Display.pixel c.disp y x = true) := by
  induction bytes with
  | nil => intro c y0 _; simp [Canvas.drawRows, bytesBit_nil]
  | cons b bs ih =>
    intro c y0 h
    simp only [List.length_cons] at h
    have hcols : ([0, 1, 2, 3, 4, 5, 6, 7] : List Nat) = List.range' 0 8 := rfl
    rw [Canvas.drawRows, ih _ _ (by omega), hcols, Canvas.hit_drawColumns b y0 x0 (by omega) 8]
    have hrow : ∀ y x, y ≠ y0 → Display.pixel (c.drawColumns b y0 x0 (List.range' 0 8)).disp y x =
        Display.pixel c.disp y x := fun y x hy => by
      rw [Canvas.pixel_drawColumns b y0 x0 (by omega) 8]; simp [hy]
    have hlow : ∀ y x, bytesBit bs x0 (y0 + 1) y x = true → y ≠ y0 := fun y x hb e => by
      subst e; simp [bytesBit] at hb
    constructor
    · rintro ((h | ⟨x, h1, h2, h3, h4, h5⟩) | ⟨y, x, h1, h2, h3⟩)
      · exact .inl h
      · exact .inr ⟨y0, x, h3, by rw [bytesBit_cons]; simp [h4]; omega, h5⟩
      · have hy := hlow y x h2
        exact .inr ⟨y, x, h1, by rw [bytesBit_cons]; simp [hy, h2], by rwa [hrow y x hy] at h3⟩
    · rintro (h | ⟨y, x, h1, h2, h3⟩)
      · exact .inl (.inl h)
      · by_cases hy : y = y0
        · subst hy
          rw [bytesBit_cons] at h2
          simp only [if_true, Bool.and_eq_true, decide_eq_true_eq] at h2
          exact .inl (.inr ⟨x, by omega, by omega, h1, h2.2, h3⟩)
        · rw [bytesBit_cons, if_neg hy] at h2
          exact .inr ⟨y, x, h1, h2, by rwa [hrow y x hy]⟩

end Sys2Proof.Machine
end

