-- ==== Sys2Proof/Laws/Memory.lean ====
section
/-! SUPPORT. What the memory operations do: read after write, the canonical form, and the cases of a checked access. -/

namespace Sys2Proof.Machine

/-! ### One byte -/

/-- Every listed address is above b. -/
theorem Memory.read_of_lt (m : Memory) (a : Nat) (h : ∀ p ∈ m, a < p.1) :
    Memory.read m a = Memory.initial a := by
  induction m with
  | nil => rfl
  | cons p rest ih =>
    have hp := h p (by simp)
    have hne : a ≠ p.1 := by omega
    simp only [Memory.read, hne, if_false]
    exact ih fun q hq => h q (by simp [hq])

/-- A read after an insertion: the new byte at its address, the old one elsewhere. -/
theorem Memory.read_insert (m : Memory) (hm : m.Pairwise fun p q => p.1 < q.1) (a : Nat) (b : Byte) (c : Nat) :
    Memory.read (Memory.insert m a b) c = if c = a then b else Memory.read m c := by
  induction m with
  | nil =>
    by_cases hb : b = Memory.initial a <;> by_cases hc : c = a <;> simp [Memory.insert, Memory.read, hb, hc]
  | cons p rest ih =>
    obtain ⟨hlt, hrest⟩ := List.pairwise_cons.1 hm
    have hfresh : ∀ x, x ≤ p.1 → Memory.read rest x = Memory.initial x := fun x hx =>
      Memory.read_of_lt rest x fun q hq => lt_of_le_of_lt hx (hlt q hq)
    rcases Nat.lt_trichotomy a p.1 with h | h | h
    · by_cases hb : b = Memory.initial a
      · by_cases hc : c = a
        · have hne : a ≠ p.1 := by omega
          simp [Memory.insert, Memory.read, h, hb, hc, hne, hfresh a (by omega)]
        · simp [Memory.insert, h, hb, hc]
      · by_cases hc : c = a <;> simp [Memory.insert, Memory.read, h, hb, hc]
    · subst h
      by_cases hb : b = Memory.initial p.1
      · by_cases hc : c = p.1
        · simp [Memory.insert, hb, hc, hfresh p.1 le_rfl]
        · simp [Memory.insert, Memory.read, hb, hc]
      · by_cases hc : c = p.1 <;> simp [Memory.insert, Memory.read, hb, hc]
    · have h1 : ¬ a < p.1 := by omega
      have h2 : a ≠ p.1 := by omega
      simp only [Memory.insert, h1, h2, if_false, Memory.read, ih hrest]
      by_cases hc : c = p.1
      · simp [hc, h2.symm]
      · simp [hc]

/-- An insertion lists only the new address beside the old ones. -/
theorem Memory.mem_insert (m : Memory) (a : Nat) (b : Byte) (p : Host.Cell) (hp : p ∈ Memory.insert m a b) :
    p ∈ m ∨ (p = (a, b) ∧ b ≠ Memory.initial a) := by
  induction m with
  | nil =>
    by_cases hb : b = Memory.initial a
    · simp [Memory.insert, hb] at hp
    · simp only [Memory.insert, hb, if_false, List.mem_singleton] at hp
      exact .inr ⟨hp, hb⟩
  | cons q rest ih =>
    simp only [Memory.insert] at hp
    split at hp
    · split at hp
      · exact .inl hp
      · rename_i hb
        rcases List.mem_cons.1 hp with h | h
        · exact .inr ⟨h, hb⟩
        · exact .inl h
    · split at hp
      · split at hp
        · exact .inl (by simp [hp])
        · rename_i hb
          rcases List.mem_cons.1 hp with h | h
          · exact .inr ⟨h, hb⟩
          · exact .inl (by simp [h])
      · rcases List.mem_cons.1 hp with h | h
        · exact .inl (by simp [h])
        · rcases ih h with h | h
          · exact .inl (by simp [h])
          · exact .inr h

/-- An insertion keeps the addresses strictly rising. -/
theorem Memory.insert_sorted (m : Memory) (hm : m.Pairwise fun p q => p.1 < q.1) (a : Nat) (b : Byte) :
    (Memory.insert m a b).Pairwise fun p q => p.1 < q.1 := by
  induction m with
  | nil => by_cases hb : b = Memory.initial a <;> simp [Memory.insert, hb]
  | cons q rest ih =>
    obtain ⟨hlt, hrest⟩ := List.pairwise_cons.1 hm
    simp only [Memory.insert]
    split
    · rename_i h
      split
      · exact hm
      · refine List.pairwise_cons.2 ⟨fun p hp => ?_, hm⟩
        rcases List.mem_cons.1 hp with rfl | hp
        · exact h
        · exact lt_trans h (hlt p hp)
    · split
      · rename_i h
        split
        · exact hrest
        · exact List.pairwise_cons.2 ⟨fun p hp => by simpa [h] using hlt p hp, hrest⟩
      · refine List.pairwise_cons.2 ⟨fun p hp => ?_, ih hrest⟩
        rcases Memory.mem_insert rest a b p hp with h | ⟨rfl, -⟩
        · exact hlt p h
        · simp only; omega

/-- A store keeps the canonical form. -/
theorem Memory.store_wf (m : Memory) (hm : Memory.wf m) (a : Nat) (b : Byte) : Memory.wf (Memory.store m a b) := by
  unfold Memory.store
  split
  · rename_i ha
    refine ⟨Memory.insert_sorted m hm.1 a b, fun p hp => ?_⟩
    rcases Memory.mem_insert m a b p hp with h | ⟨rfl, hb⟩
    · exact hm.2 p h
    · exact ⟨ha, hb⟩
  · exact hm

/-- Read after write (spec/20_memory.md R60). -/
theorem Memory.read_store (m : Memory) (hm : Memory.wf m) (a : Nat) (ha : a ≤ Config.addrMax) (b : Byte) (c : Nat) :
    Memory.read (Memory.store m a b) c = if c = a then b else Memory.read m c := by
  rw [Memory.store, if_pos ha, Memory.read_insert m hm.1]

/-- A store leaves every other address alone, whatever the address stored to. -/
theorem Memory.read_store_ne (m : Memory) (hm : Memory.wf m) (a c : Nat) (b : Byte) (h : c ≠ a) :
    Memory.read (Memory.store m a b) c = Memory.read m c := by
  unfold Memory.store
  split
  · rw [Memory.read_insert m hm.1, if_neg h]
  · rfl

/-! ### Blocks -/

/-- A block store keeps the canonical form. -/
theorem Memory.storeBytes_wf (bytes : List Byte) : ∀ (m : Memory) (a : Nat), Memory.wf m →
    Memory.wf (Memory.storeBytes m a bytes) := by
  induction bytes with
  | nil => exact fun m a h => h
  | cons b bs ih => exact fun m a h => ih _ _ (Memory.store_wf m h a b)

/-- A read after a block store inside memory: byte k at a + k, the old byte elsewhere. -/
theorem Memory.read_storeBytes (bytes : List Byte) : ∀ (m : Memory) (a : Nat), Memory.wf m →
    a + bytes.length ≤ Config.memSize → ∀ c, Memory.read (Memory.storeBytes m a bytes) c =
      if h : a ≤ c ∧ c < a + bytes.length then bytes[c - a]'(by omega) else Memory.read m c := by
  induction bytes with
  | nil => intro m a _ _ c; simp [Memory.storeBytes]
  | cons b bs ih =>
    intro m a hm ha c
    simp only [List.length_cons] at ha
    have haddr : a ≤ Config.addrMax := by simp only [Config.memSize] at ha; simp only [Config.addrMax]; omega
    rw [Memory.storeBytes, ih _ _ (Memory.store_wf m hm a b) (by omega) c, Memory.read_store m hm a haddr b c]
    by_cases h : a + 1 ≤ c ∧ c < a + 1 + bs.length
    · have h' : a ≤ c ∧ c < a + (b :: bs).length := by simp only [List.length_cons]; omega
      have hsub : c - a = (c - (a + 1)) + 1 := by omega
      rw [dif_pos h, dif_pos h']
      simp [hsub]
    · rw [dif_neg h]
      by_cases hc : c = a
      · subst hc
        simp
      · have h' : ¬ (a ≤ c ∧ c < a + (b :: bs).length) := by simp only [List.length_cons]; omega
        rw [dif_neg h', if_neg hc]

/-- A block store changes no byte below its start. -/
theorem Memory.read_storeBytes_below (bytes : List Byte) : ∀ (m : Memory) (a c : Nat), Memory.wf m → c < a →
    Memory.read (Memory.storeBytes m a bytes) c = Memory.read m c := by
  induction bytes with
  | nil => intros; rfl
  | cons b bs ih =>
    intro m a c hm h
    rw [Memory.storeBytes, ih _ _ _ (Memory.store_wf m hm a b) (by omega), Memory.read_store_ne m hm a c b (by omega)]

@[simp] theorem Memory.readBytes_length (m : Memory) (a n : Nat) : (Memory.readBytes m a n).length = n := by
  simp [Memory.readBytes]

theorem Memory.readBytes_getElem (m : Memory) (a n k : Nat) (h : k < (Memory.readBytes m a n).length) :
    (Memory.readBytes m a n)[k] = Memory.read m (a + k) := by
  simp [Memory.readBytes]

/-! ### Checked accesses (R55 to R57) -/

/-- A range check passes exactly when the block is in memory. -/
theorem checkRange_ok (kind : FaultCause) (start n : Nat) (h : n = 0 ∨ start + n ≤ 0x1000) :
    checkRange kind start n = .ok () := if_pos h

/-- A range check names the first byte address above 0xFFF. -/
theorem checkRange_error (kind : FaultCause) (start n : Nat) (h : n ≠ 0) (h' : 0x1000 < start + n) :
    checkRange kind start n = .error ⟨kind, firstBad start⟩ :=
  if_neg (by simp only [Config.memSize]; omega)

/-- A read of a block in memory gives its bytes. -/
theorem readBlock_ok (kind : FaultCause) (m : Memory) (start n : Nat) (h : n = 0 ∨ start + n ≤ 0x1000) :
    readBlock kind m start n = .ok (Memory.readBytes m start n) := by
  rw [readBlock, checkRange_ok kind start n h]

/-- A read of a block that leaves memory faults. -/
theorem readBlock_error (kind : FaultCause) (m : Memory) (start n : Nat) (h : n ≠ 0) (h' : 0x1000 < start + n) :
    readBlock kind m start n = .error ⟨kind, firstBad start⟩ := by
  rw [readBlock, checkRange_error kind start n h h']

/-- A write of a block inside the writable memory stores its bytes. -/
theorem writeBlock_ok (m : Memory) (start : Nat) (bytes : List Byte) (h : start + bytes.length ≤ 0x1000)
    (hlow : 0x200 ≤ start) : writeBlock m start bytes = .ok (Memory.storeBytes m start bytes) := by
  rw [writeBlock, checkRange_ok _ _ _ (.inr h)]
  simp only [checkLow, Config.progBase, hlow, if_true]

/-- A write of a block that leaves memory faults, whether or not it starts too low. -/
theorem writeBlock_range (m : Memory) (start : Nat) (bytes : List Byte) (hne : bytes ≠ [])
    (h : 0x1000 < start + bytes.length) : writeBlock m start bytes = .error ⟨.memoryWrite, firstBad start⟩ := by
  rw [writeBlock, checkRange_error _ _ _ (by simpa using hne) h]

/-- A write of a block in memory that starts below 0x200 faults. -/
theorem writeBlock_low (m : Memory) (start : Nat) (bytes : List Byte) (h : start + bytes.length ≤ 0x1000)
    (hlow : start < 0x200) :
    writeBlock m start bytes = .error ⟨.lowMemoryWrite, BitVec.ofNat 16 start⟩ := by
  have : ¬ 0x200 ≤ start := by omega
  rw [writeBlock, checkRange_ok _ _ _ (.inr h)]
  simp only [checkLow, Config.progBase, this, if_false]

/-- Everything a block write can do. -/
theorem writeBlock_cases (m : Memory) (start : Nat) (bytes : List Byte) (hne : bytes ≠ []) :
    (0x200 ≤ start ∧ start + bytes.length ≤ 0x1000 ∧
      writeBlock m start bytes = .ok (Memory.storeBytes m start bytes)) ∨
    (0x1000 < start + bytes.length ∧ writeBlock m start bytes = .error ⟨.memoryWrite, firstBad start⟩) ∨
    (start < 0x200 ∧ start + bytes.length ≤ 0x1000 ∧
      writeBlock m start bytes = .error ⟨.lowMemoryWrite, BitVec.ofNat 16 start⟩) := by
  by_cases h : 0x1000 < start + bytes.length
  · exact .inr (.inl ⟨h, writeBlock_range m start bytes hne h⟩)
  · by_cases hlow : start < 0x200
    · exact .inr (.inr ⟨hlow, by omega, writeBlock_low m start bytes (by omega) hlow⟩)
    · exact .inl ⟨by omega, by omega, writeBlock_ok m start bytes (by omega) (by omega)⟩

/-- Everything a block read can do. -/
theorem readBlock_cases (kind : FaultCause) (m : Memory) (start n : Nat) :
    ((n = 0 ∨ start + n ≤ 0x1000) ∧ readBlock kind m start n = .ok (Memory.readBytes m start n)) ∨
    (n ≠ 0 ∧ 0x1000 < start + n ∧ readBlock kind m start n = .error ⟨kind, firstBad start⟩) := by
  by_cases h : n = 0 ∨ start + n ≤ 0x1000
  · exact .inl ⟨h, readBlock_ok kind m start n h⟩
  · exact .inr ⟨by omega, by omega, readBlock_error kind m start n (by omega) (by omega)⟩

/-- A fetch in memory gives the big-endian word of the two bytes (R52, R59). -/
theorem State.fetch_ok (s : State) (h : s.pc.toNat ≤ 0xFFE) :
    s.fetch = .ok (wordOfBytes (Memory.read s.mem s.pc.toNat) (Memory.read s.mem (s.pc.toNat + 1))) := by
  rw [State.fetch, readBlock_ok _ _ _ _ (.inr (by omega))]
  rfl

/-- A fetch that leaves memory faults (R59). -/
theorem State.fetch_error (s : State) (h : 0xFFE < s.pc.toNat) :
    s.fetch = .error ⟨.memoryFetch, firstBad s.pc.toNat⟩ := by
  rw [State.fetch, readBlock_error _ _ _ _ (by omega) (by omega)]

end Sys2Proof.Machine
end

