-- ==== Sys2Proof/Laws/State.lean ====
section
/-! SUPPORT. One lemma per field per update of the state, true by rfl, so that no proof unfolds a record update; and
the reads of the registers and the keypad latch over every update. -/

namespace Sys2Proof.Machine

variable (s : State)

/-! ### setPc -/

@[simp] theorem State.setPc_v (t : Word) : (s.setPc t).v = s.v := rfl
@[simp] theorem State.setPc_i (t : Word) : (s.setPc t).i = s.i := rfl
@[simp] theorem State.setPc_pc (t : Word) : (s.setPc t).pc = t := rfl
@[simp] theorem State.setPc_stack (t : Word) : (s.setPc t).stack = s.stack := rfl
@[simp] theorem State.setPc_dt (t : Word) : (s.setPc t).dt = s.dt := rfl
@[simp] theorem State.setPc_st (t : Word) : (s.setPc t).st = s.st := rfl
@[simp] theorem State.setPc_mem (t : Word) : (s.setPc t).mem = s.mem := rfl
@[simp] theorem State.setPc_disp (t : Word) : (s.setPc t).disp = s.disp := rfl
@[simp] theorem State.setPc_keys (t : Word) : (s.setPc t).keys = s.keys := rfl
@[simp] theorem State.setPc_runState (t : Word) : (s.setPc t).runState = s.runState := rfl
@[simp] theorem State.setPc_faultRec (t : Word) : (s.setPc t).faultRec = s.faultRec := rfl
@[simp] theorem State.setPc_keyWait (t : Word) : (s.setPc t).keyWait = s.keyWait := rfl
@[simp] theorem State.setPc_rndDraws (t : Word) : (s.setPc t).rndDraws = s.rndDraws := rfl
@[simp] theorem State.setPc_keyPicks (t : Word) : (s.setPc t).keyPicks = s.keyPicks := rfl

/-! ### advance -/

@[simp] theorem State.advance_v : s.advance.v = s.v := rfl
@[simp] theorem State.advance_i : s.advance.i = s.i := rfl
@[simp] theorem State.advance_pc : s.advance.pc = s.pc + 2 := rfl
@[simp] theorem State.advance_stack : s.advance.stack = s.stack := rfl
@[simp] theorem State.advance_dt : s.advance.dt = s.dt := rfl
@[simp] theorem State.advance_st : s.advance.st = s.st := rfl
@[simp] theorem State.advance_mem : s.advance.mem = s.mem := rfl
@[simp] theorem State.advance_disp : s.advance.disp = s.disp := rfl
@[simp] theorem State.advance_keys : s.advance.keys = s.keys := rfl
@[simp] theorem State.advance_runState : s.advance.runState = s.runState := rfl
@[simp] theorem State.advance_faultRec : s.advance.faultRec = s.faultRec := rfl
@[simp] theorem State.advance_keyWait : s.advance.keyWait = s.keyWait := rfl
@[simp] theorem State.advance_rndDraws : s.advance.rndDraws = s.rndDraws := rfl
@[simp] theorem State.advance_keyPicks : s.advance.keyPicks = s.keyPicks := rfl

/-! ### setI -/

@[simp] theorem State.setI_v (a : Word) : (s.setI a).v = s.v := rfl
@[simp] theorem State.setI_i (a : Word) : (s.setI a).i = a := rfl
@[simp] theorem State.setI_pc (a : Word) : (s.setI a).pc = s.pc := rfl
@[simp] theorem State.setI_stack (a : Word) : (s.setI a).stack = s.stack := rfl
@[simp] theorem State.setI_dt (a : Word) : (s.setI a).dt = s.dt := rfl
@[simp] theorem State.setI_st (a : Word) : (s.setI a).st = s.st := rfl
@[simp] theorem State.setI_mem (a : Word) : (s.setI a).mem = s.mem := rfl
@[simp] theorem State.setI_disp (a : Word) : (s.setI a).disp = s.disp := rfl
@[simp] theorem State.setI_keys (a : Word) : (s.setI a).keys = s.keys := rfl
@[simp] theorem State.setI_runState (a : Word) : (s.setI a).runState = s.runState := rfl
@[simp] theorem State.setI_faultRec (a : Word) : (s.setI a).faultRec = s.faultRec := rfl
@[simp] theorem State.setI_keyWait (a : Word) : (s.setI a).keyWait = s.keyWait := rfl
@[simp] theorem State.setI_rndDraws (a : Word) : (s.setI a).rndDraws = s.rndDraws := rfl
@[simp] theorem State.setI_keyPicks (a : Word) : (s.setI a).keyPicks = s.keyPicks := rfl

/-! ### setRegs -/

@[simp] theorem State.setRegs_v (v : Vector Byte 16) : (s.setRegs v).v = v := rfl
@[simp] theorem State.setRegs_i (v : Vector Byte 16) : (s.setRegs v).i = s.i := rfl
@[simp] theorem State.setRegs_pc (v : Vector Byte 16) : (s.setRegs v).pc = s.pc := rfl
@[simp] theorem State.setRegs_stack (v : Vector Byte 16) : (s.setRegs v).stack = s.stack := rfl
@[simp] theorem State.setRegs_dt (v : Vector Byte 16) : (s.setRegs v).dt = s.dt := rfl
@[simp] theorem State.setRegs_st (v : Vector Byte 16) : (s.setRegs v).st = s.st := rfl
@[simp] theorem State.setRegs_mem (v : Vector Byte 16) : (s.setRegs v).mem = s.mem := rfl
@[simp] theorem State.setRegs_disp (v : Vector Byte 16) : (s.setRegs v).disp = s.disp := rfl
@[simp] theorem State.setRegs_keys (v : Vector Byte 16) : (s.setRegs v).keys = s.keys := rfl
@[simp] theorem State.setRegs_runState (v : Vector Byte 16) : (s.setRegs v).runState = s.runState := rfl
@[simp] theorem State.setRegs_faultRec (v : Vector Byte 16) : (s.setRegs v).faultRec = s.faultRec := rfl
@[simp] theorem State.setRegs_keyWait (v : Vector Byte 16) : (s.setRegs v).keyWait = s.keyWait := rfl
@[simp] theorem State.setRegs_rndDraws (v : Vector Byte 16) : (s.setRegs v).rndDraws = s.rndDraws := rfl
@[simp] theorem State.setRegs_keyPicks (v : Vector Byte 16) : (s.setRegs v).keyPicks = s.keyPicks := rfl

/-! ### setV -/

@[simp] theorem State.setV_v (r : Reg) (b : Byte) : (s.setV r b).v = s.v.set r.toNat b r.isLt := rfl
@[simp] theorem State.setV_i (r : Reg) (b : Byte) : (s.setV r b).i = s.i := rfl
@[simp] theorem State.setV_pc (r : Reg) (b : Byte) : (s.setV r b).pc = s.pc := rfl
@[simp] theorem State.setV_stack (r : Reg) (b : Byte) : (s.setV r b).stack = s.stack := rfl
@[simp] theorem State.setV_dt (r : Reg) (b : Byte) : (s.setV r b).dt = s.dt := rfl
@[simp] theorem State.setV_st (r : Reg) (b : Byte) : (s.setV r b).st = s.st := rfl
@[simp] theorem State.setV_mem (r : Reg) (b : Byte) : (s.setV r b).mem = s.mem := rfl
@[simp] theorem State.setV_disp (r : Reg) (b : Byte) : (s.setV r b).disp = s.disp := rfl
@[simp] theorem State.setV_keys (r : Reg) (b : Byte) : (s.setV r b).keys = s.keys := rfl
@[simp] theorem State.setV_runState (r : Reg) (b : Byte) : (s.setV r b).runState = s.runState := rfl
@[simp] theorem State.setV_faultRec (r : Reg) (b : Byte) : (s.setV r b).faultRec = s.faultRec := rfl
@[simp] theorem State.setV_keyWait (r : Reg) (b : Byte) : (s.setV r b).keyWait = s.keyWait := rfl
@[simp] theorem State.setV_rndDraws (r : Reg) (b : Byte) : (s.setV r b).rndDraws = s.rndDraws := rfl
@[simp] theorem State.setV_keyPicks (r : Reg) (b : Byte) : (s.setV r b).keyPicks = s.keyPicks := rfl

/-! ### setStack -/

@[simp] theorem State.setStack_v (l : List Word) : (s.setStack l).v = s.v := rfl
@[simp] theorem State.setStack_i (l : List Word) : (s.setStack l).i = s.i := rfl
@[simp] theorem State.setStack_pc (l : List Word) : (s.setStack l).pc = s.pc := rfl
@[simp] theorem State.setStack_stack (l : List Word) : (s.setStack l).stack = l := rfl
@[simp] theorem State.setStack_dt (l : List Word) : (s.setStack l).dt = s.dt := rfl
@[simp] theorem State.setStack_st (l : List Word) : (s.setStack l).st = s.st := rfl
@[simp] theorem State.setStack_mem (l : List Word) : (s.setStack l).mem = s.mem := rfl
@[simp] theorem State.setStack_disp (l : List Word) : (s.setStack l).disp = s.disp := rfl
@[simp] theorem State.setStack_keys (l : List Word) : (s.setStack l).keys = s.keys := rfl
@[simp] theorem State.setStack_runState (l : List Word) : (s.setStack l).runState = s.runState := rfl
@[simp] theorem State.setStack_faultRec (l : List Word) : (s.setStack l).faultRec = s.faultRec := rfl
@[simp] theorem State.setStack_keyWait (l : List Word) : (s.setStack l).keyWait = s.keyWait := rfl
@[simp] theorem State.setStack_rndDraws (l : List Word) : (s.setStack l).rndDraws = s.rndDraws := rfl
@[simp] theorem State.setStack_keyPicks (l : List Word) : (s.setStack l).keyPicks = s.keyPicks := rfl

/-! ### setDt -/

@[simp] theorem State.setDt_v (b : Byte) : (s.setDt b).v = s.v := rfl
@[simp] theorem State.setDt_i (b : Byte) : (s.setDt b).i = s.i := rfl
@[simp] theorem State.setDt_pc (b : Byte) : (s.setDt b).pc = s.pc := rfl
@[simp] theorem State.setDt_stack (b : Byte) : (s.setDt b).stack = s.stack := rfl
@[simp] theorem State.setDt_dt (b : Byte) : (s.setDt b).dt = b := rfl
@[simp] theorem State.setDt_st (b : Byte) : (s.setDt b).st = s.st := rfl
@[simp] theorem State.setDt_mem (b : Byte) : (s.setDt b).mem = s.mem := rfl
@[simp] theorem State.setDt_disp (b : Byte) : (s.setDt b).disp = s.disp := rfl
@[simp] theorem State.setDt_keys (b : Byte) : (s.setDt b).keys = s.keys := rfl
@[simp] theorem State.setDt_runState (b : Byte) : (s.setDt b).runState = s.runState := rfl
@[simp] theorem State.setDt_faultRec (b : Byte) : (s.setDt b).faultRec = s.faultRec := rfl
@[simp] theorem State.setDt_keyWait (b : Byte) : (s.setDt b).keyWait = s.keyWait := rfl
@[simp] theorem State.setDt_rndDraws (b : Byte) : (s.setDt b).rndDraws = s.rndDraws := rfl
@[simp] theorem State.setDt_keyPicks (b : Byte) : (s.setDt b).keyPicks = s.keyPicks := rfl

/-! ### setSt -/

@[simp] theorem State.setSt_v (b : Byte) : (s.setSt b).v = s.v := rfl
@[simp] theorem State.setSt_i (b : Byte) : (s.setSt b).i = s.i := rfl
@[simp] theorem State.setSt_pc (b : Byte) : (s.setSt b).pc = s.pc := rfl
@[simp] theorem State.setSt_stack (b : Byte) : (s.setSt b).stack = s.stack := rfl
@[simp] theorem State.setSt_dt (b : Byte) : (s.setSt b).dt = s.dt := rfl
@[simp] theorem State.setSt_st (b : Byte) : (s.setSt b).st = b := rfl
@[simp] theorem State.setSt_mem (b : Byte) : (s.setSt b).mem = s.mem := rfl
@[simp] theorem State.setSt_disp (b : Byte) : (s.setSt b).disp = s.disp := rfl
@[simp] theorem State.setSt_keys (b : Byte) : (s.setSt b).keys = s.keys := rfl
@[simp] theorem State.setSt_runState (b : Byte) : (s.setSt b).runState = s.runState := rfl
@[simp] theorem State.setSt_faultRec (b : Byte) : (s.setSt b).faultRec = s.faultRec := rfl
@[simp] theorem State.setSt_keyWait (b : Byte) : (s.setSt b).keyWait = s.keyWait := rfl
@[simp] theorem State.setSt_rndDraws (b : Byte) : (s.setSt b).rndDraws = s.rndDraws := rfl
@[simp] theorem State.setSt_keyPicks (b : Byte) : (s.setSt b).keyPicks = s.keyPicks := rfl

/-! ### setMem -/

@[simp] theorem State.setMem_v (m : Memory) : (s.setMem m).v = s.v := rfl
@[simp] theorem State.setMem_i (m : Memory) : (s.setMem m).i = s.i := rfl
@[simp] theorem State.setMem_pc (m : Memory) : (s.setMem m).pc = s.pc := rfl
@[simp] theorem State.setMem_stack (m : Memory) : (s.setMem m).stack = s.stack := rfl
@[simp] theorem State.setMem_dt (m : Memory) : (s.setMem m).dt = s.dt := rfl
@[simp] theorem State.setMem_st (m : Memory) : (s.setMem m).st = s.st := rfl
@[simp] theorem State.setMem_mem (m : Memory) : (s.setMem m).mem = m := rfl
@[simp] theorem State.setMem_disp (m : Memory) : (s.setMem m).disp = s.disp := rfl
@[simp] theorem State.setMem_keys (m : Memory) : (s.setMem m).keys = s.keys := rfl
@[simp] theorem State.setMem_runState (m : Memory) : (s.setMem m).runState = s.runState := rfl
@[simp] theorem State.setMem_faultRec (m : Memory) : (s.setMem m).faultRec = s.faultRec := rfl
@[simp] theorem State.setMem_keyWait (m : Memory) : (s.setMem m).keyWait = s.keyWait := rfl
@[simp] theorem State.setMem_rndDraws (m : Memory) : (s.setMem m).rndDraws = s.rndDraws := rfl
@[simp] theorem State.setMem_keyPicks (m : Memory) : (s.setMem m).keyPicks = s.keyPicks := rfl

/-! ### setDisp -/

@[simp] theorem State.setDisp_v (d : Display) : (s.setDisp d).v = s.v := rfl
@[simp] theorem State.setDisp_i (d : Display) : (s.setDisp d).i = s.i := rfl
@[simp] theorem State.setDisp_pc (d : Display) : (s.setDisp d).pc = s.pc := rfl
@[simp] theorem State.setDisp_stack (d : Display) : (s.setDisp d).stack = s.stack := rfl
@[simp] theorem State.setDisp_dt (d : Display) : (s.setDisp d).dt = s.dt := rfl
@[simp] theorem State.setDisp_st (d : Display) : (s.setDisp d).st = s.st := rfl
@[simp] theorem State.setDisp_mem (d : Display) : (s.setDisp d).mem = s.mem := rfl
@[simp] theorem State.setDisp_disp (d : Display) : (s.setDisp d).disp = d := rfl
@[simp] theorem State.setDisp_keys (d : Display) : (s.setDisp d).keys = s.keys := rfl
@[simp] theorem State.setDisp_runState (d : Display) : (s.setDisp d).runState = s.runState := rfl
@[simp] theorem State.setDisp_faultRec (d : Display) : (s.setDisp d).faultRec = s.faultRec := rfl
@[simp] theorem State.setDisp_keyWait (d : Display) : (s.setDisp d).keyWait = s.keyWait := rfl
@[simp] theorem State.setDisp_rndDraws (d : Display) : (s.setDisp d).rndDraws = s.rndDraws := rfl
@[simp] theorem State.setDisp_keyPicks (d : Display) : (s.setDisp d).keyPicks = s.keyPicks := rfl

/-! ### setKeys -/

@[simp] theorem State.setKeys_v (levels : KeyLevels) : (s.setKeys levels).v = s.v := rfl
@[simp] theorem State.setKeys_i (levels : KeyLevels) : (s.setKeys levels).i = s.i := rfl
@[simp] theorem State.setKeys_pc (levels : KeyLevels) : (s.setKeys levels).pc = s.pc := rfl
@[simp] theorem State.setKeys_stack (levels : KeyLevels) : (s.setKeys levels).stack = s.stack := rfl
@[simp] theorem State.setKeys_dt (levels : KeyLevels) : (s.setKeys levels).dt = s.dt := rfl
@[simp] theorem State.setKeys_st (levels : KeyLevels) : (s.setKeys levels).st = s.st := rfl
@[simp] theorem State.setKeys_mem (levels : KeyLevels) : (s.setKeys levels).mem = s.mem := rfl
@[simp] theorem State.setKeys_disp (levels : KeyLevels) : (s.setKeys levels).disp = s.disp := rfl
@[simp] theorem State.setKeys_keys (levels : KeyLevels) : (s.setKeys levels).keys = levels := rfl
@[simp] theorem State.setKeys_runState (levels : KeyLevels) : (s.setKeys levels).runState = s.runState := rfl
@[simp] theorem State.setKeys_faultRec (levels : KeyLevels) : (s.setKeys levels).faultRec = s.faultRec := rfl
@[simp] theorem State.setKeys_keyWait (levels : KeyLevels) : (s.setKeys levels).keyWait = s.keyWait := rfl
@[simp] theorem State.setKeys_rndDraws (levels : KeyLevels) : (s.setKeys levels).rndDraws = s.rndDraws := rfl
@[simp] theorem State.setKeys_keyPicks (levels : KeyLevels) : (s.setKeys levels).keyPicks = s.keyPicks := rfl

/-! ### setRun -/

@[simp] theorem State.setRun_v (r : RunState) : (s.setRun r).v = s.v := rfl
@[simp] theorem State.setRun_i (r : RunState) : (s.setRun r).i = s.i := rfl
@[simp] theorem State.setRun_pc (r : RunState) : (s.setRun r).pc = s.pc := rfl
@[simp] theorem State.setRun_stack (r : RunState) : (s.setRun r).stack = s.stack := rfl
@[simp] theorem State.setRun_dt (r : RunState) : (s.setRun r).dt = s.dt := rfl
@[simp] theorem State.setRun_st (r : RunState) : (s.setRun r).st = s.st := rfl
@[simp] theorem State.setRun_mem (r : RunState) : (s.setRun r).mem = s.mem := rfl
@[simp] theorem State.setRun_disp (r : RunState) : (s.setRun r).disp = s.disp := rfl
@[simp] theorem State.setRun_keys (r : RunState) : (s.setRun r).keys = s.keys := rfl
@[simp] theorem State.setRun_runState (r : RunState) : (s.setRun r).runState = r := rfl
@[simp] theorem State.setRun_faultRec (r : RunState) : (s.setRun r).faultRec = s.faultRec := rfl
@[simp] theorem State.setRun_keyWait (r : RunState) : (s.setRun r).keyWait = s.keyWait := rfl
@[simp] theorem State.setRun_rndDraws (r : RunState) : (s.setRun r).rndDraws = s.rndDraws := rfl
@[simp] theorem State.setRun_keyPicks (r : RunState) : (s.setRun r).keyPicks = s.keyPicks := rfl

/-! ### setWait -/

@[simp] theorem State.setWait_v (b : Bool) : (s.setWait b).v = s.v := rfl
@[simp] theorem State.setWait_i (b : Bool) : (s.setWait b).i = s.i := rfl
@[simp] theorem State.setWait_pc (b : Bool) : (s.setWait b).pc = s.pc := rfl
@[simp] theorem State.setWait_stack (b : Bool) : (s.setWait b).stack = s.stack := rfl
@[simp] theorem State.setWait_dt (b : Bool) : (s.setWait b).dt = s.dt := rfl
@[simp] theorem State.setWait_st (b : Bool) : (s.setWait b).st = s.st := rfl
@[simp] theorem State.setWait_mem (b : Bool) : (s.setWait b).mem = s.mem := rfl
@[simp] theorem State.setWait_disp (b : Bool) : (s.setWait b).disp = s.disp := rfl
@[simp] theorem State.setWait_keys (b : Bool) : (s.setWait b).keys = s.keys := rfl
@[simp] theorem State.setWait_runState (b : Bool) : (s.setWait b).runState = s.runState := rfl
@[simp] theorem State.setWait_faultRec (b : Bool) : (s.setWait b).faultRec = s.faultRec := rfl
@[simp] theorem State.setWait_keyWait (b : Bool) : (s.setWait b).keyWait = b := rfl
@[simp] theorem State.setWait_rndDraws (b : Bool) : (s.setWait b).rndDraws = s.rndDraws := rfl
@[simp] theorem State.setWait_keyPicks (b : Bool) : (s.setWait b).keyPicks = s.keyPicks := rfl

/-! ### countDraw -/

@[simp] theorem State.countDraw_v : s.countDraw.v = s.v := rfl
@[simp] theorem State.countDraw_i : s.countDraw.i = s.i := rfl
@[simp] theorem State.countDraw_pc : s.countDraw.pc = s.pc := rfl
@[simp] theorem State.countDraw_stack : s.countDraw.stack = s.stack := rfl
@[simp] theorem State.countDraw_dt : s.countDraw.dt = s.dt := rfl
@[simp] theorem State.countDraw_st : s.countDraw.st = s.st := rfl
@[simp] theorem State.countDraw_mem : s.countDraw.mem = s.mem := rfl
@[simp] theorem State.countDraw_disp : s.countDraw.disp = s.disp := rfl
@[simp] theorem State.countDraw_keys : s.countDraw.keys = s.keys := rfl
@[simp] theorem State.countDraw_runState : s.countDraw.runState = s.runState := rfl
@[simp] theorem State.countDraw_faultRec : s.countDraw.faultRec = s.faultRec := rfl
@[simp] theorem State.countDraw_keyWait : s.countDraw.keyWait = s.keyWait := rfl
@[simp] theorem State.countDraw_rndDraws : s.countDraw.rndDraws = s.rndDraws + 1 := rfl
@[simp] theorem State.countDraw_keyPicks : s.countDraw.keyPicks = s.keyPicks := rfl

/-! ### countPick -/

@[simp] theorem State.countPick_v : s.countPick.v = s.v := rfl
@[simp] theorem State.countPick_i : s.countPick.i = s.i := rfl
@[simp] theorem State.countPick_pc : s.countPick.pc = s.pc := rfl
@[simp] theorem State.countPick_stack : s.countPick.stack = s.stack := rfl
@[simp] theorem State.countPick_dt : s.countPick.dt = s.dt := rfl
@[simp] theorem State.countPick_st : s.countPick.st = s.st := rfl
@[simp] theorem State.countPick_mem : s.countPick.mem = s.mem := rfl
@[simp] theorem State.countPick_disp : s.countPick.disp = s.disp := rfl
@[simp] theorem State.countPick_keys : s.countPick.keys = s.keys := rfl
@[simp] theorem State.countPick_runState : s.countPick.runState = s.runState := rfl
@[simp] theorem State.countPick_faultRec : s.countPick.faultRec = s.faultRec := rfl
@[simp] theorem State.countPick_keyWait : s.countPick.keyWait = s.keyWait := rfl
@[simp] theorem State.countPick_rndDraws : s.countPick.rndDraws = s.rndDraws := rfl
@[simp] theorem State.countPick_keyPicks : s.countPick.keyPicks = s.keyPicks + 1 := rfl

/-! ### raise -/

@[simp] theorem State.raise_v (o : Option Word) (f : Trap) : (s.raise o f).v = s.v := rfl
@[simp] theorem State.raise_i (o : Option Word) (f : Trap) : (s.raise o f).i = s.i := rfl
@[simp] theorem State.raise_pc (o : Option Word) (f : Trap) : (s.raise o f).pc = s.pc := rfl
@[simp] theorem State.raise_stack (o : Option Word) (f : Trap) : (s.raise o f).stack = s.stack := rfl
@[simp] theorem State.raise_dt (o : Option Word) (f : Trap) : (s.raise o f).dt = s.dt := rfl
@[simp] theorem State.raise_st (o : Option Word) (f : Trap) : (s.raise o f).st = s.st := rfl
@[simp] theorem State.raise_mem (o : Option Word) (f : Trap) : (s.raise o f).mem = s.mem := rfl
@[simp] theorem State.raise_disp (o : Option Word) (f : Trap) : (s.raise o f).disp = s.disp := rfl
@[simp] theorem State.raise_keys (o : Option Word) (f : Trap) : (s.raise o f).keys = s.keys := rfl
@[simp] theorem State.raise_runState (o : Option Word) (f : Trap) : (s.raise o f).runState = .faulted := rfl
@[simp] theorem State.raise_faultRec (o : Option Word) (f : Trap) : (s.raise o f).faultRec = some ⟨f.cause, s.pc, o, f.info⟩ := rfl
@[simp] theorem State.raise_keyWait (o : Option Word) (f : Trap) : (s.raise o f).keyWait = s.keyWait := rfl
@[simp] theorem State.raise_rndDraws (o : Option Word) (f : Trap) : (s.raise o f).rndDraws = s.rndDraws := rfl
@[simp] theorem State.raise_keyPicks (o : Option Word) (f : Trap) : (s.raise o f).keyPicks = s.keyPicks := rfl

/-! ### Register reads over the updates -/

@[simp] theorem State.getV_setPc (t : Word) (q : Reg) : (s.setPc t).getV q = s.getV q := rfl
@[simp] theorem State.getV_advance (q : Reg) : s.advance.getV q = s.getV q := rfl
@[simp] theorem State.getV_setI (a : Word) (q : Reg) : (s.setI a).getV q = s.getV q := rfl
@[simp] theorem State.getV_setStack (l : List Word) (q : Reg) : (s.setStack l).getV q = s.getV q := rfl
@[simp] theorem State.getV_setDt (b : Byte) (q : Reg) : (s.setDt b).getV q = s.getV q := rfl
@[simp] theorem State.getV_setSt (b : Byte) (q : Reg) : (s.setSt b).getV q = s.getV q := rfl
@[simp] theorem State.getV_setMem (m : Memory) (q : Reg) : (s.setMem m).getV q = s.getV q := rfl
@[simp] theorem State.getV_setDisp (d : Display) (q : Reg) : (s.setDisp d).getV q = s.getV q := rfl
@[simp] theorem State.getV_setKeys (levels : KeyLevels) (q : Reg) : (s.setKeys levels).getV q = s.getV q := rfl
@[simp] theorem State.getV_setRun (r : RunState) (q : Reg) : (s.setRun r).getV q = s.getV q := rfl
@[simp] theorem State.getV_setWait (b : Bool) (q : Reg) : (s.setWait b).getV q = s.getV q := rfl
@[simp] theorem State.getV_countDraw (q : Reg) : s.countDraw.getV q = s.getV q := rfl
@[simp] theorem State.getV_countPick (q : Reg) : s.countPick.getV q = s.getV q := rfl
@[simp] theorem State.getV_raise (o : Option Word) (f : Trap) (q : Reg) : (s.raise o f).getV q = s.getV q := rfl

/-- A register reads its new value, every other its old one (spec/10_state.md R22). -/
@[simp] theorem State.getV_setV (r : Reg) (b : Byte) (q : Reg) :
    (s.setV r b).getV q = if q = r then b else s.getV q := by
  by_cases h : q = r
  · subst h; simp [State.getV]
  · have : r.toNat ≠ q.toNat := fun e => h (BitVec.eq_of_toNat_eq e.symm)
    simp [State.getV, this, h]

@[simp] theorem State.getV_setRegs (v : Vector Byte 16) (q : Reg) :
    (s.setRegs v).getV q = v[q.toNat]'q.isLt := rfl

/-- Writing a register twice keeps the second value. -/
theorem State.setV_setV (r : Reg) (a b : Byte) : (s.setV r a).setV r b = s.setV r b := by
  simp [State.setV, State.setRegs]

/-- A register read depends on the register file only. -/
theorem State.getV_congr (t : State) (h : t.v = s.v) (q : Reg) : t.getV q = s.getV q := by
  simp [State.getV, h]

/-! ### Key reads over the updates -/

@[simp] theorem State.key_setPc (t : Word) (k : Nat) : (s.setPc t).key k = s.key k := rfl
@[simp] theorem State.key_advance (k : Nat) : s.advance.key k = s.key k := rfl
@[simp] theorem State.key_setI (a : Word) (k : Nat) : (s.setI a).key k = s.key k := rfl
@[simp] theorem State.key_setRegs (v : Vector Byte 16) (k : Nat) : (s.setRegs v).key k = s.key k := rfl
@[simp] theorem State.key_setV (r : Reg) (b : Byte) (k : Nat) : (s.setV r b).key k = s.key k := rfl
@[simp] theorem State.key_setStack (l : List Word) (k : Nat) : (s.setStack l).key k = s.key k := rfl
@[simp] theorem State.key_setDt (b : Byte) (k : Nat) : (s.setDt b).key k = s.key k := rfl
@[simp] theorem State.key_setSt (b : Byte) (k : Nat) : (s.setSt b).key k = s.key k := rfl
@[simp] theorem State.key_setMem (m : Memory) (k : Nat) : (s.setMem m).key k = s.key k := rfl
@[simp] theorem State.key_setDisp (d : Display) (k : Nat) : (s.setDisp d).key k = s.key k := rfl
@[simp] theorem State.key_setRun (r : RunState) (k : Nat) : (s.setRun r).key k = s.key k := rfl
@[simp] theorem State.key_setWait (b : Bool) (k : Nat) : (s.setWait b).key k = s.key k := rfl
@[simp] theorem State.key_countDraw (k : Nat) : s.countDraw.key k = s.key k := rfl
@[simp] theorem State.key_countPick (k : Nat) : s.countPick.key k = s.key k := rfl
@[simp] theorem State.key_raise (o : Option Word) (f : Trap) (k : Nat) : (s.raise o f).key k = s.key k := rfl

end Sys2Proof.Machine
end

