-- ==== Sys2Proof/Laws/Operands.lean ====
section
/-! SUPPORT. What the operand forms and flag computations give, and how a block of registers is read and written. -/

namespace Sys2Proof.Machine

/-- Loading successive registers: byte j - k in register j of the block, the old value elsewhere. -/
theorem loadFrom_getElem (bytes : List Byte) : ∀ (v : Vector Byte 16) (k j : Nat) (hj : j < 16),
    (loadFrom v k bytes)[j] = if h : k ≤ j ∧ j < k + bytes.length then bytes[j - k]'(by omega) else v[j] := by
  induction bytes with
  | nil => intro v k j hj; simp [loadFrom]
  | cons b bs ih =>
    intro v k j hj
    rw [loadFrom, ih]
    by_cases h : k + 1 ≤ j ∧ j < k + 1 + bs.length
    · have h' : k ≤ j ∧ j < k + (b :: bs).length := by simp only [List.length_cons]; omega
      have hs : j - k = (j - (k + 1)) + 1 := by omega
      rw [dif_pos h, dif_pos h']
      simp [hs]
    · rw [dif_neg h]
      by_cases hk : j = k
      · subst hk; simp
      · have h' : ¬ (k ≤ j ∧ j < k + (b :: bs).length) := by simp only [List.length_cons]; omega
        rw [dif_neg h']
        simp [Ne.symm hk]

@[simp] theorem State.firstRegs_length (s : State) (x : Reg) : (s.firstRegs x).length = x.toNat + 1 := by
  simp [State.firstRegs]

theorem State.firstRegs_getElem (s : State) (x : Reg) (k : Nat) (h : k < (s.firstRegs x).length) :
    (s.firstRegs x)[k] = s.getV (BitVec.ofNat 4 k) := by
  simp [State.firstRegs]

@[simp] theorem bcdDigits_length (b : Byte) : (bcdDigits b).length = 3 := rfl

@[simp] theorem State.address_eq (s : State) (k : Nat) : s.address k = s.i.toNat + k := rfl

/-- A key index passes exactly up to 0xF (spec/44_keypad_timer_ops.md R200). -/
theorem State.keyIndex_ok (s : State) (x : Reg) (h : (s.getV x).toNat ≤ 0xF) :
    s.keyIndex x = .ok (s.getV x).toNat := if_pos h

theorem State.keyIndex_error (s : State) (x : Reg) (h : 0xF < (s.getV x).toNat) :
    s.keyIndex x = .error ⟨.keyIndex, (s.getV x).setWidth 16⟩ := if_neg (by omega)

/-! ### Flags as numbers (spec/10_state.md R25) -/

@[simp] theorem toNat_flagByte (b : Bool) : (flagByte b).toNat = if b then 1 else 0 := by cases b <;> rfl

theorem toNat_carry (a b : Byte) : (carry a b).toNat = if 255 < a.toNat + b.toNat then 1 else 0 := by
  simp [carry]

theorem toNat_noBorrow (a b : Byte) : (noBorrow a b).toNat = if b.toNat ≤ a.toNat then 1 else 0 := by
  simp [noBorrow]

theorem toNat_shiftOutRight (a : Byte) : (shiftOutRight a).toNat = a.toNat % 2 := by
  simp [shiftOutRight, BitVec.toNat_and]

theorem toNat_shiftOutLeft (a : Byte) : (shiftOutLeft a).toNat = a.toNat / 128 := by
  simp [shiftOutLeft, Nat.shiftRight_eq_div_pow]

end Sys2Proof.Machine
end

