-- ==== Sys2Proof/Laws/Ops.lean ====
section
/-! SUPPORT. Once for each shared operation: everything it can do. -/

namespace Sys2Proof.Machine

/-- Outcomes without a computed state are the fault taken on the state from before the step. -/
@[simp] theorem State.conclude_ok (s t : State) (i : Instr) : s.conclude i (.ok t) = .next t := rfl

@[simp] theorem State.conclude_error (s : State) (i : Instr) (f : Trap) :
    s.conclude i (.error f) = .next (s.raise (some (encode i)) f) := rfl

/-- Everything `conclude` can do: it always gives a next state. -/
theorem State.conclude_cases (s : State) (i : Instr) (r : Except Trap State) :
    (∃ t, r = .ok t ∧ s.conclude i r = .next t) ∨
    (∃ f, r = .error f ∧ s.conclude i r = .next (s.raise (some (encode i)) f)) := by
  cases r with
  | ok t => exact .inl ⟨t, rfl, rfl⟩
  | error f => exact .inr ⟨f, rfl, rfl⟩

/-- A push below the capacity (spec/10_state.md R29). -/
theorem State.push_ok (s : State) (v : Word) (h : s.stack.length < 16) :
    s.push v = .ok (s.setStack (s.stack ++ [v])) := if_pos h

/-- A push on a full stack (R29). -/
theorem State.push_error (s : State) (v : Word) (h : 16 ≤ s.stack.length) :
    s.push v = .error ⟨.stackOverflow, BitVec.ofNat 16 s.stack.length⟩ :=
  if_neg (by simp only [stackDepth]; omega)

/-- A pop gives the last entry (R30). -/
theorem State.pop_ok (s : State) (l : List Word) (a : Word) (h : s.stack = l ++ [a]) :
    s.pop = .ok (a, s.setStack l) := by
  simp [State.pop, h]

/-- A pop of an empty stack (R30). -/
theorem State.pop_error (s : State) (h : s.stack = []) : s.pop = .error ⟨.stackUnderflow, 0⟩ := by
  simp [State.pop, h]

/-- A skip gives a next state that differs in pc only (spec/40_control_flow.md R100). -/
theorem State.skipIf_eq (s : State) (c : Bool) :
    s.skipIf c = .next (s.setPc (if c then s.pc + 4 else s.pc + 2)) := by
  cases c
  · rfl
  · simp only [State.skipIf, if_true]
    have : s.pc + 2 + 2 = s.pc + 4 := by rw [BitVec.add_assoc]; rfl
    rw [← this]
    rfl

/-- Everything a key skip can do (spec/44_keypad_timer_ops.md R200 to R202). -/
theorem State.skipOnKey_cases (s : State) (i : Instr) (x : Reg) (want : Bool) :
    ((s.getV x).toNat ≤ 0xF ∧
      s.skipOnKey i x want = .next (s.setPc (if s.key (s.getV x).toNat == want then s.pc + 4 else s.pc + 2))) ∨
    (0xF < (s.getV x).toNat ∧
      s.skipOnKey i x want = .next (s.raise (some (encode i)) ⟨.keyIndex, (s.getV x).setWidth 16⟩)) := by
  by_cases h : (s.getV x).toNat ≤ 0xF
  · refine .inl ⟨h, ?_⟩
    simp only [State.skipOnKey, s.keyIndex_ok x h]
    rw [State.skipIf_eq]
  · refine .inr ⟨by omega, ?_⟩
    simp only [State.skipOnKey, s.keyIndex_error x (by omega)]
    rfl

/-- Everything a store from I on can do (spec/42_index_memory.md R164, R165). -/
theorem State.storeAtI_cases (s : State) (i : Instr) (bytes : List Byte) (hne : bytes ≠ []) :
    (0x200 ≤ s.i.toNat ∧ s.i.toNat + bytes.length ≤ 0x1000 ∧
      s.storeAtI i bytes = .next (s.advance.setMem (Memory.storeBytes s.mem s.i.toNat bytes))) ∨
    (0x1000 < s.i.toNat + bytes.length ∧
      s.storeAtI i bytes = .next (s.raise (some (encode i)) ⟨.memoryWrite, firstBad s.i.toNat⟩)) ∨
    (s.i.toNat < 0x200 ∧ s.i.toNat + bytes.length ≤ 0x1000 ∧
      s.storeAtI i bytes = .next (s.raise (some (encode i)) ⟨.lowMemoryWrite, s.i⟩)) := by
  have hi : BitVec.ofNat 16 s.i.toNat = s.i := by simp
  rcases writeBlock_cases s.mem s.i.toNat bytes hne with ⟨h1, h2, h⟩ | ⟨h1, h⟩ | ⟨h1, h2, h⟩
  · exact .inl ⟨h1, h2, by simp [State.storeAtI, h]⟩
  · exact .inr (.inl ⟨h1, by simp [State.storeAtI, h]⟩)
  · exact .inr (.inr ⟨h1, h2, by simp [State.storeAtI, h, hi]⟩)

/-- The pressed keys are exactly the codes of keys whose level is 1 (spec/10_state.md R33). -/
theorem State.mem_pressed (s : State) (k : Nat) : k ∈ s.pressed ↔ k < 16 ∧ s.key k = true := by
  simp [State.pressed, Config.nKeys]

/-- The chosen key is one of the pressed ones (R204). -/
theorem chooseKey_mem (k : Nat) (ks : List Nat) (pick : Nat) : chooseKey k ks pick ∈ k :: ks := by
  cases ks with
  | nil => simp [chooseKey]
  | cons q rest =>
    have h : pick % ((q :: rest).length + 1) < (k :: q :: rest).length := Nat.mod_lt _ (by simp)
    rw [chooseKey, List.getD_eq_getElem _ _ h]
    exact List.getElem_mem h

end Sys2Proof.Machine
end

