-- ==== Sys2Proof/Laws/Frames.lean ====
section
/-! SUPPORT. The vocabulary of the frames: membership in the lists of parts, and how frames compose. -/

namespace Sys2Proof.Machine

/-- The bytes listed by memParts are those of the block. -/
theorem mem_memParts (a n c : Nat) : Part.mem c ∈ memParts a n ↔ a ≤ c ∧ c < a + n := by
  simp only [memParts, List.mem_map, List.mem_range, Part.mem.injEq]
  constructor
  · rintro ⟨k, h, rfl⟩
    omega
  · rintro ⟨h1, h2⟩
    exact ⟨c - a, by omega, by omega⟩

/-- Only bytes of memory are listed by memParts. -/
theorem not_mem_memParts (p : Part) (a n : Nat) (h : ∀ c, p ≠ .mem c) : p ∉ memParts a n := by
  simp only [memParts, List.mem_map, not_exists, not_and]
  intro k _ e
  exact h _ e.symm

/-- The registers listed by regParts are V[0] to V[x]. -/
theorem mem_regParts (x r : Reg) : Part.v r ∈ regParts x ↔ r.toNat ≤ x.toNat := by
  have := r.isLt
  have := x.isLt
  simp only [regParts, List.mem_map, List.mem_range, Part.v.injEq]
  constructor
  · rintro ⟨k, h, rfl⟩
    simp
    omega
  · intro h
    exact ⟨r.toNat, by omega, by simp⟩

/-- Only registers are listed by regParts. -/
theorem not_mem_regParts (p : Part) (x : Reg) (h : ∀ r, p ≠ .v r) : p ∉ regParts x := by
  simp only [regParts, List.mem_map, not_exists, not_and]
  intro k _ e
  exact h _ e.symm

/-- Every part of a state is the same in itself. -/
theorem Part.same_refl (p : Part) (s : State) : p.same s s := by cases p <;> rfl

theorem Part.same_trans (p : Part) (s t u : State) (h : p.same s t) (h' : p.same t u) : p.same s u := by
  cases p <;> exact Eq.trans h' h

/-- A frame may list more parts. -/
theorem ChangesOnly.mono (ps qs : List Part) (s t : State) (h : ChangesOnly ps s t) (hsub : ∀ p ∈ ps, p ∈ qs) :
    ChangesOnly qs s t := fun p hp => h p fun hp' => hp (hsub p hp')

/-- Two changes within one frame make a change within it. -/
theorem ChangesOnly.trans (ps : List Part) (s t u : State) (h : ChangesOnly ps s t) (h' : ChangesOnly ps t u) :
    ChangesOnly ps s u := fun p hp => p.same_trans s t u (h p hp) (h' p hp)

/-- The info of a range fault from a 16-bit start (spec/60_exceptions.md R223). -/
theorem firstBad_word (a : Word) : firstBad a.toNat = if a.toNat ≤ 0xFFF then 0x1000 else a := by
  unfold firstBad Config.memSize
  split
  · rw [Nat.max_eq_right (by omega)]
    rfl
  · rw [Nat.max_eq_left (by omega)]
    simp

end Sys2Proof.Machine
end

