-- ==== Sys2Proof/Laws/PerInstr.lean ====
section
/-! SUPPORT. Per-instruction laws. EncodesInRow: the word of a well-formed instruction lies in the set of words that its
own row of spec/opcode_table.json selects by mask and match (spec/30_encoding.md R73). -/

namespace Sys2Proof.Laws.EncodesInRow

/-- mask and match of the instruction's row, as spec/opcode_table.json gives them. -/
def maskMatch : Instr → Word × Word
  | .cls => (0xFFFF#16, 0x00E0#16)
  | .ret => (0xFFFF#16, 0x00EE#16)
  | .jp _ => (0xF000#16, 0x1000#16)
  | .call _ => (0xF000#16, 0x2000#16)
  | .seImm _ _ => (0xF000#16, 0x3000#16)
  | .sneImm _ _ => (0xF000#16, 0x4000#16)
  | .seReg _ _ => (0xF00F#16, 0x5000#16)
  | .ldImm _ _ => (0xF000#16, 0x6000#16)
  | .addImm _ _ => (0xF000#16, 0x7000#16)
  | .ldReg _ _ => (0xF00F#16, 0x8000#16)
  | .orReg _ _ => (0xF00F#16, 0x8001#16)
  | .andReg _ _ => (0xF00F#16, 0x8002#16)
  | .xorReg _ _ => (0xF00F#16, 0x8003#16)
  | .addReg _ _ => (0xF00F#16, 0x8004#16)
  | .sub _ _ => (0xF00F#16, 0x8005#16)
  | .shr _ _ => (0xF00F#16, 0x8006#16)
  | .subn _ _ => (0xF00F#16, 0x8007#16)
  | .shl _ _ => (0xF00F#16, 0x800E#16)
  | .sneReg _ _ => (0xF00F#16, 0x9000#16)
  | .ldI _ => (0xF000#16, 0xA000#16)
  | .jpV0 _ => (0xF000#16, 0xB000#16)
  | .rnd _ _ => (0xF000#16, 0xC000#16)
  | .drw _ _ _ => (0xF000#16, 0xD000#16)
  | .skp _ => (0xF0FF#16, 0xE09E#16)
  | .sknp _ => (0xF0FF#16, 0xE0A1#16)
  | .ldVxDt _ => (0xF0FF#16, 0xF007#16)
  | .ldVxK _ => (0xF0FF#16, 0xF00A#16)
  | .ldDtVx _ => (0xF0FF#16, 0xF015#16)
  | .ldStVx _ => (0xF0FF#16, 0xF018#16)
  | .addI _ => (0xF0FF#16, 0xF01E#16)
  | .ldF _ => (0xF0FF#16, 0xF029#16)
  | .ldB _ => (0xF0FF#16, 0xF033#16)
  | .stRegs _ => (0xF0FF#16, 0xF055#16)
  | .ldRegs _ => (0xF0FF#16, 0xF065#16)

/-- A well-formed instruction's word has its row's fixed bits. -/
def Statement (i : Instr) : Prop :=
  i.wellFormed = true → encode i &&& (maskMatch i).1 = (maskMatch i).2

theorem cls : Statement .cls := fun _ => by decide

theorem ret : Statement .ret := fun _ => by decide

theorem jp (nnn : Word) : Statement (.jp nnn) := by
  intro h
  have hn := of_decide_eq_true (show fitsNNN nnn = true from h)
  apply BitVec.eq_of_toNat_eq
  simp only [encode, maskMatch, toNat_and_top, toNat_wordNNN _ nnn (by decide : 0x1 < 16) h, BitVec.toNat_ofNat]
  omega

theorem call (nnn : Word) : Statement (.call nnn) := by
  intro h
  have hn := of_decide_eq_true (show fitsNNN nnn = true from h)
  apply BitVec.eq_of_toNat_eq
  simp only [encode, maskMatch, toNat_and_top, toNat_wordNNN _ nnn (by decide : 0x2 < 16) h, BitVec.toNat_ofNat]
  omega

theorem seImm (x : Reg) (nn : Byte) : Statement (.seImm x nn) := by
  intro _
  have := x.isLt
  have := nn.isLt
  apply BitVec.eq_of_toNat_eq
  simp only [encode, maskMatch, toNat_and_top, toNat_wordXNN _ x nn (by decide : 0x3 < 16), BitVec.toNat_ofNat]
  omega

theorem sneImm (x : Reg) (nn : Byte) : Statement (.sneImm x nn) := by
  intro _
  have := x.isLt
  have := nn.isLt
  apply BitVec.eq_of_toNat_eq
  simp only [encode, maskMatch, toNat_and_top, toNat_wordXNN _ x nn (by decide : 0x4 < 16), BitVec.toNat_ofNat]
  omega

theorem seReg (x y : Reg) : Statement (.seReg x y) := by
  intro _
  have := x.isLt
  have := y.isLt
  apply BitVec.eq_of_toNat_eq
  simp only [encode, maskMatch, toNat_and_top_nibble, toNat_wordXYN _ x y 0x0 (by decide : 0x5 < 16) (by decide), BitVec.toNat_ofNat]
  omega

theorem ldImm (x : Reg) (nn : Byte) : Statement (.ldImm x nn) := by
  intro _
  have := x.isLt
  have := nn.isLt
  apply BitVec.eq_of_toNat_eq
  simp only [encode, maskMatch, toNat_and_top, toNat_wordXNN _ x nn (by decide : 0x6 < 16), BitVec.toNat_ofNat]
  omega

theorem addImm (x : Reg) (nn : Byte) : Statement (.addImm x nn) := by
  intro _
  have := x.isLt
  have := nn.isLt
  apply BitVec.eq_of_toNat_eq
  simp only [encode, maskMatch, toNat_and_top, toNat_wordXNN _ x nn (by decide : 0x7 < 16), BitVec.toNat_ofNat]
  omega

theorem ldReg (x y : Reg) : Statement (.ldReg x y) := by
  intro _
  have := x.isLt
  have := y.isLt
  apply BitVec.eq_of_toNat_eq
  simp only [encode, maskMatch, toNat_and_top_nibble, toNat_wordXYN _ x y 0x0 (by decide : 0x8 < 16) (by decide), BitVec.toNat_ofNat]
  omega

theorem orReg (x y : Reg) : Statement (.orReg x y) := by
  intro _
  have := x.isLt
  have := y.isLt
  apply BitVec.eq_of_toNat_eq
  simp only [encode, maskMatch, toNat_and_top_nibble, toNat_wordXYN _ x y 0x1 (by decide : 0x8 < 16) (by decide), BitVec.toNat_ofNat]
  omega

theorem andReg (x y : Reg) : Statement (.andReg x y) := by
  intro _
  have := x.isLt
  have := y.isLt
  apply BitVec.eq_of_toNat_eq
  simp only [encode, maskMatch, toNat_and_top_nibble, toNat_wordXYN _ x y 0x2 (by decide : 0x8 < 16) (by decide), BitVec.toNat_ofNat]
  omega

theorem xorReg (x y : Reg) : Statement (.xorReg x y) := by
  intro _
  have := x.isLt
  have := y.isLt
  apply BitVec.eq_of_toNat_eq
  simp only [encode, maskMatch, toNat_and_top_nibble, toNat_wordXYN _ x y 0x3 (by decide : 0x8 < 16) (by decide), BitVec.toNat_ofNat]
  omega

theorem addReg (x y : Reg) : Statement (.addReg x y) := by
  intro _
  have := x.isLt
  have := y.isLt
  apply BitVec.eq_of_toNat_eq
  simp only [encode, maskMatch, toNat_and_top_nibble, toNat_wordXYN _ x y 0x4 (by decide : 0x8 < 16) (by decide), BitVec.toNat_ofNat]
  omega

theorem sub (x y : Reg) : Statement (.sub x y) := by
  intro _
  have := x.isLt
  have := y.isLt
  apply BitVec.eq_of_toNat_eq
  simp only [encode, maskMatch, toNat_and_top_nibble, toNat_wordXYN _ x y 0x5 (by decide : 0x8 < 16) (by decide), BitVec.toNat_ofNat]
  omega

theorem shr (x y : Reg) : Statement (.shr x y) := by
  intro _
  have := x.isLt
  have := y.isLt
  apply BitVec.eq_of_toNat_eq
  simp only [encode, maskMatch, toNat_and_top_nibble, toNat_wordXYN _ x y 0x6 (by decide : 0x8 < 16) (by decide), BitVec.toNat_ofNat]
  omega

theorem subn (x y : Reg) : Statement (.subn x y) := by
  intro _
  have := x.isLt
  have := y.isLt
  apply BitVec.eq_of_toNat_eq
  simp only [encode, maskMatch, toNat_and_top_nibble, toNat_wordXYN _ x y 0x7 (by decide : 0x8 < 16) (by decide), BitVec.toNat_ofNat]
  omega

theorem shl (x y : Reg) : Statement (.shl x y) := by
  intro _
  have := x.isLt
  have := y.isLt
  apply BitVec.eq_of_toNat_eq
  simp only [encode, maskMatch, toNat_and_top_nibble, toNat_wordXYN _ x y 0xE (by decide : 0x8 < 16) (by decide), BitVec.toNat_ofNat]
  omega

theorem sneReg (x y : Reg) : Statement (.sneReg x y) := by
  intro _
  have := x.isLt
  have := y.isLt
  apply BitVec.eq_of_toNat_eq
  simp only [encode, maskMatch, toNat_and_top_nibble, toNat_wordXYN _ x y 0x0 (by decide : 0x9 < 16) (by decide), BitVec.toNat_ofNat]
  omega

theorem ldI (nnn : Word) : Statement (.ldI nnn) := by
  intro h
  have hn := of_decide_eq_true (show fitsNNN nnn = true from h)
  apply BitVec.eq_of_toNat_eq
  simp only [encode, maskMatch, toNat_and_top, toNat_wordNNN _ nnn (by decide : 0xA < 16) h, BitVec.toNat_ofNat]
  omega

theorem jpV0 (nnn : Word) : Statement (.jpV0 nnn) := by
  intro h
  have hn := of_decide_eq_true (show fitsNNN nnn = true from h)
  apply BitVec.eq_of_toNat_eq
  simp only [encode, maskMatch, toNat_and_top, toNat_wordNNN _ nnn (by decide : 0xB < 16) h, BitVec.toNat_ofNat]
  omega

theorem rnd (x : Reg) (nn : Byte) : Statement (.rnd x nn) := by
  intro _
  have := x.isLt
  have := nn.isLt
  apply BitVec.eq_of_toNat_eq
  simp only [encode, maskMatch, toNat_and_top, toNat_wordXNN _ x nn (by decide : 0xC < 16), BitVec.toNat_ofNat]
  omega

theorem drw (x y : Reg) (n : Nat) : Statement (.drw x y n) := by
  intro h
  have hn := of_decide_eq_true (show fitsN n = true from h)
  have := x.isLt
  have := y.isLt
  apply BitVec.eq_of_toNat_eq
  simp only [encode, maskMatch, toNat_and_top, toNat_wordXYN _ x y n (by decide : 0xD < 16) hn, BitVec.toNat_ofNat]
  omega

theorem skp (x : Reg) : Statement (.skp x) := by
  intro _
  have := x.isLt
  apply BitVec.eq_of_toNat_eq
  simp only [encode, maskMatch, toNat_and_top_byte, BitVec.ofNat_eq_ofNat, toNat_wordXNN _ x 0x9E#8 (by decide : 0xE < 16), BitVec.toNat_ofNat]
  omega

theorem sknp (x : Reg) : Statement (.sknp x) := by
  intro _
  have := x.isLt
  apply BitVec.eq_of_toNat_eq
  simp only [encode, maskMatch, toNat_and_top_byte, BitVec.ofNat_eq_ofNat, toNat_wordXNN _ x 0xA1#8 (by decide : 0xE < 16), BitVec.toNat_ofNat]
  omega

theorem ldVxDt (x : Reg) : Statement (.ldVxDt x) := by
  intro _
  have := x.isLt
  apply BitVec.eq_of_toNat_eq
  simp only [encode, maskMatch, toNat_and_top_byte, BitVec.ofNat_eq_ofNat, toNat_wordXNN _ x 0x07#8 (by decide : 0xF < 16), BitVec.toNat_ofNat]
  omega

theorem ldVxK (x : Reg) : Statement (.ldVxK x) := by
  intro _
  have := x.isLt
  apply BitVec.eq_of_toNat_eq
  simp only [encode, maskMatch, toNat_and_top_byte, BitVec.ofNat_eq_ofNat, toNat_wordXNN _ x 0x0A#8 (by decide : 0xF < 16), BitVec.toNat_ofNat]
  omega

theorem ldDtVx (x : Reg) : Statement (.ldDtVx x) := by
  intro _
  have := x.isLt
  apply BitVec.eq_of_toNat_eq
  simp only [encode, maskMatch, toNat_and_top_byte, BitVec.ofNat_eq_ofNat, toNat_wordXNN _ x 0x15#8 (by decide : 0xF < 16), BitVec.toNat_ofNat]
  omega

theorem ldStVx (x : Reg) : Statement (.ldStVx x) := by
  intro _
  have := x.isLt
  apply BitVec.eq_of_toNat_eq
  simp only [encode, maskMatch, toNat_and_top_byte, BitVec.ofNat_eq_ofNat, toNat_wordXNN _ x 0x18#8 (by decide : 0xF < 16), BitVec.toNat_ofNat]
  omega

theorem addI (x : Reg) : Statement (.addI x) := by
  intro _
  have := x.isLt
  apply BitVec.eq_of_toNat_eq
  simp only [encode, maskMatch, toNat_and_top_byte, BitVec.ofNat_eq_ofNat, toNat_wordXNN _ x 0x1E#8 (by decide : 0xF < 16), BitVec.toNat_ofNat]
  omega

theorem ldF (x : Reg) : Statement (.ldF x) := by
  intro _
  have := x.isLt
  apply BitVec.eq_of_toNat_eq
  simp only [encode, maskMatch, toNat_and_top_byte, BitVec.ofNat_eq_ofNat, toNat_wordXNN _ x 0x29#8 (by decide : 0xF < 16), BitVec.toNat_ofNat]
  omega

theorem ldB (x : Reg) : Statement (.ldB x) := by
  intro _
  have := x.isLt
  apply BitVec.eq_of_toNat_eq
  simp only [encode, maskMatch, toNat_and_top_byte, BitVec.ofNat_eq_ofNat, toNat_wordXNN _ x 0x33#8 (by decide : 0xF < 16), BitVec.toNat_ofNat]
  omega

theorem stRegs (x : Reg) : Statement (.stRegs x) := by
  intro _
  have := x.isLt
  apply BitVec.eq_of_toNat_eq
  simp only [encode, maskMatch, toNat_and_top_byte, BitVec.ofNat_eq_ofNat, toNat_wordXNN _ x 0x55#8 (by decide : 0xF < 16), BitVec.toNat_ofNat]
  omega

theorem ldRegs (x : Reg) : Statement (.ldRegs x) := by
  intro _
  have := x.isLt
  apply BitVec.eq_of_toNat_eq
  simp only [encode, maskMatch, toNat_and_top_byte, BitVec.ofNat_eq_ofNat, toNat_wordXNN _ x 0x65#8 (by decide : 0xF < 16), BitVec.toNat_ofNat]
  omega

end Sys2Proof.Laws.EncodesInRow
end

