-- ==== Sys2Proof/Laws/Step.lean ====
section
/-! SUPPORT. Once for the step: everything it can do (spec/30_encoding.md R81; spec/60_exceptions.md R221, R222). -/

namespace Sys2Proof.Machine

/-- A step of a Running state at a fetchable pc is the run of the word it fetches. -/
theorem step_of_fetch (s : State) (hr : s.runState = .running) (w : Word) (hw : s.fetch = .ok w) :
    step s = match decodeWord w with
      | .ok i => exec i s
      | .error _ => .next (execUnknown s) := by
  cases h : decodeWord w <;> simp [step, hr, hw, h]

/-- Everything a step can do. -/
theorem step_cases (s : State) :
    (s.runState ≠ .running ∧ step s = .next s) ∨
    (s.runState = .running ∧ 0xFFE < s.pc.toNat ∧
      step s = .next (s.raise none ⟨.memoryFetch, firstBad s.pc.toNat⟩)) ∨
    (s.runState = .running ∧ s.pc.toNat ≤ 0xFFE ∧ ∃ w i, s.fetch = .ok w ∧ decodeWord w = .ok i ∧ step s = exec i s) ∨
    (s.runState = .running ∧ s.pc.toNat ≤ 0xFFE ∧ ∃ w, s.fetch = .ok w ∧ decodeWord w = .error (.unknownOpcode w) ∧
      step s = .next s.advance) := by
  by_cases hr : s.runState = .running
  · right
    by_cases hpc : s.pc.toNat ≤ 0xFFE
    · right
      have hw := s.fetch_ok hpc
      have hs := step_of_fetch s hr _ hw
      rcases decodeWord_cases (wordOfBytes (Memory.read s.mem s.pc.toNat) (Memory.read s.mem (s.pc.toNat + 1)))
        with ⟨r, -, -, hd⟩ | ⟨-, hd⟩
      · exact .inl ⟨hr, hpc, _, _, hw, hd, by rw [hs, hd]⟩
      · exact .inr ⟨hr, hpc, _, hw, hd, by rw [hs, hd]; rfl⟩
    · exact .inl ⟨hr, by omega, by simp [step, hr, s.fetch_error (by omega)]⟩
  · exact .inl ⟨hr, by cases h : s.runState <;> simp_all [step]⟩

end Sys2Proof.Machine
end

