-- ==== Sys2Proof/Tests/Slice0.lean ====
section
/-! SUPPORT. Tests: the smoke test of WellFormed, words written out from the patterns of spec/30_encoding.md R73, one-step
vectors of spec/95_test_vectors.md (their numbers stand beside them), and for each obligation with hypotheses a witness
that meets them, at the boundary values of its clauses. -/

namespace Sys2Proof.Tests

open Sys2Proof.Machine

/-! ### WellFormed -/

theorem test_wellFormed_refuses_wide_jp : (Instr.jp 0x1000).wellFormed = false := by decide
theorem test_wellFormed_refuses_wide_call : (Instr.call 0xFFFF).wellFormed = false := by decide
theorem test_wellFormed_refuses_wide_ldI : (Instr.ldI 0x1000).wellFormed = false := by decide
theorem test_wellFormed_refuses_wide_jpV0 : (Instr.jpV0 0x1000).wellFormed = false := by decide
theorem test_wellFormed_refuses_tall_drw : (Instr.drw 0 0 16).wellFormed = false := by decide
theorem test_wellFormed_accepts_widest : (Instr.jp 0xFFF).wellFormed = true ∧ (Instr.drw 15 15 15).wellFormed = true := by
  decide

/-! ### Decoding: a word of every constructor, written out from its pattern, and its word back -/

/-- The word decodes to the instruction and the instruction encodes to the word. -/
def reads (w : Word) (i : Instr) : Bool := decodeWord w == .ok i && encode i == w

/-- The word is in the unknown-opcode space. -/
def unknown (w : Word) : Bool := decodeWord w == .error (.unknownOpcode w)

theorem test_decode_control : reads 0x00E0 .cls ∧ reads 0x00EE .ret ∧ reads 0x1234 (.jp 0x234) ∧
    reads 0x2ABC (.call 0xABC) ∧ reads 0xB300 (.jpV0 0x300) := by decide
theorem test_decode_skips : reads 0x3310 (.seImm 3 0x10) ∧ reads 0x4310 (.sneImm 3 0x10) ∧ reads 0x5120 (.seReg 1 2) ∧
    reads 0x9120 (.sneReg 1 2) := by decide
theorem test_decode_immediates : reads 0x6A5C (.ldImm 0xA 0x5C) ∧ reads 0x7F01 (.addImm 0xF 0x01) ∧
    reads 0xC50F (.rnd 5 0x0F) := by decide
theorem test_decode_family_8 : reads 0x8370 (.ldReg 3 7) ∧ reads 0x8371 (.orReg 3 7) ∧ reads 0x8372 (.andReg 3 7) ∧
    reads 0x8373 (.xorReg 3 7) ∧ reads 0x8374 (.addReg 3 7) := by decide
theorem test_decode_family_8_flags : reads 0x8375 (.sub 3 7) ∧ reads 0x8376 (.shr 3 7) ∧ reads 0x8377 (.subn 3 7) ∧
    reads 0x837E (.shl 3 7) := by decide
theorem test_decode_index : reads 0xA123 (.ldI 0x123) ∧ reads 0xF21E (.addI 2) ∧ reads 0xF429 (.ldF 4) ∧
    reads 0xF533 (.ldB 5) ∧ reads 0xF255 (.stRegs 2) ∧ reads 0xF265 (.ldRegs 2) := by decide
theorem test_decode_draw : reads 0xD345 (.drw 3 4 5) := by decide
theorem test_decode_keypad_timer : reads 0xE19E (.skp 1) ∧ reads 0xE1A1 (.sknp 1) ∧ reads 0xF307 (.ldVxDt 3) ∧
    reads 0xF20A (.ldVxK 2) ∧ reads 0xF315 (.ldDtVx 3) ∧ reads 0xF318 (.ldStVx 3) := by decide
/-- FD1 to FD3, CF19, CF23, KT8, and a hole of family 8. -/
theorem test_decode_unknown : unknown 0x0000 ∧ unknown 0x0123 ∧ unknown 0xF0FF ∧ unknown 0x5121 ∧ unknown 0x9121 ∧
    unknown 0xE19F ∧ unknown 0x8018 := by decide
/-- The bytes of a word stand high byte first (spec/20_memory.md R52). -/
theorem test_encode_bytes : encodeBytes (.drw 0 1 1) = [0xD0, 0x11] ∧ tableBytes 16 0x1200 = [0x12, 0x00] := by decide
theorem test_decode_truncated : decode [0x12] = .error .truncated := by decide
theorem test_decodeTableWord : decodeTableWord 16 0xD345 = some (.drw 3 4 5) ∧ decodeTableWord 16 0x0123 = none := by
  decide

/-- Lines of the listings of spec/95_test_vectors.md, part L3. -/
theorem test_asm : asmWord 0xD345 = "DRW V3, V4, 5" ∧ asmWord 0xF155 = "LD [I], V1" ∧ asmWord 0x220C = "CALL 0x20C" ∧
    asmWord 0x0000 = "DW 0x0000" := by decide

/-! ### One step -/

/-- The state of the vectors: reset, with the word at 0x200. -/
def start (word : Nat) : State := State.reset.withFetchWord 16 word

/-- The same with some registers set. -/
def withV (word : Nat) (vs : List (Reg × Byte)) : State := vs.foldl (fun s p => s.setV p.1 p.2) (start word)

/-- A state whose pixels (y, x) are lit. -/
def lit (s : State) (ps : List (Nat × Nat)) : State :=
  s.setDisp (ps.foldl (fun d p => Display.setPixel d p.1 p.2 true) s.disp)

/-- A state whose keys are pressed. -/
def hold (s : State) (ks : List Nat) : State := s.setKeys (Vector.ofFn fun k => ks.contains k.val)

/-- Whether the step gives a next state with the property. -/
def after (s : State) (p : State → Bool) : Bool :=
  match step s with
  | .next t => p t
  | _ => false

/-- "Fault (c, info)": the record, and nothing else changed. -/
def faults (s : State) (code : Nat) (opcode : Option Word) (info : Word) : Bool :=
  after s fun t => faultCode t == code && t.runState == .faulted &&
    t.faultRec.map (fun r => (r.pc, r.opcode, r.info)) == some (s.pc, opcode, info) &&
    { t with runState := s.runState, faultRec := s.faultRec } == s

/-- Which pixels of a display are lit among those of the given rows and columns. -/
def litIn (d : Display) (ys xs : List Nat) : List (Nat × Nat) :=
  ys.flatMap fun y => (xs.filter fun x => Display.pixel d y x).map fun x => (y, x)

/-- CF1, CF2. -/
theorem test_ret : after ((start 0x00EE).setStack [0x206]) (fun t => t.pc == 0x206 && t.stack == []) := by decide
theorem test_ret_underflow : faults (start 0x00EE) 2 (some 0x00EE) 0 := by decide
/-- CF5. -/
theorem test_jp : after (start 0x1FFF) (fun t => t.pc == 0xFFF) := by decide
/-- CF6, CF8. -/
theorem test_call : after (start 0x2300) (fun t => t.pc == 0x300 && t.stack == [0x202]) := by decide
theorem test_call_overflow : faults ((start 0x2300).setStack (List.replicate 16 0x202)) 1 (some 0x2300) 16 := by decide
/-- CF10, CF11. -/
theorem test_seImm : after (withV 0x3310 [(3, 0x10)]) (fun t => t.pc == 0x204) := by decide
theorem test_seImm_differs : after (withV 0x3310 [(3, 0x11)]) (fun t => t.pc == 0x202) := by decide
/-- CF14, CF15. -/
theorem test_sneImm : after (withV 0x4310 [(3, 0x11)]) (fun t => t.pc == 0x204) := by decide
theorem test_sneImm_equal : after (withV 0x4310 [(3, 0x10)]) (fun t => t.pc == 0x202) := by decide
/-- CF16, CF17. -/
theorem test_seReg : after (withV 0x5120 [(1, 7), (2, 7)]) (fun t => t.pc == 0x204) := by decide
theorem test_seReg_differs : after (withV 0x5120 [(1, 7), (2, 8)]) (fun t => t.pc == 0x202) := by decide
/-- CF20, CF22. -/
theorem test_sneReg : after (withV 0x9120 [(1, 7), (2, 8)]) (fun t => t.pc == 0x204) := by decide
theorem test_sneReg_same : after (withV 0x9110 [(1, 9)]) (fun t => t.pc == 0x202) := by decide
/-- CF25, CF26. -/
theorem test_jpV0 : after (withV 0xBFFF [(0, 0xFF)]) (fun t => t.pc == 0x10FE) := by decide
theorem test_jpV0_uses_v0 : after (withV 0xB200 [(2, 0x50)]) (fun t => t.pc == 0x200) := by decide

/-- AL1. -/
theorem test_ldImm : after (start 0x6AFF) (fun t => t.getV 0xA == 0xFF && t.pc == 0x202) := by decide
/-- AL2, AL3. -/
theorem test_addImm : after (withV 0x7AFF [(0xA, 2)]) (fun t => t.getV 0xA == 1 && t.getV 0xF == 0) := by decide
theorem test_addImm_flag_register : after (withV 0x7F01 [(0xF, 0xFF)]) (fun t => t.getV 0xF == 0) := by decide
/-- AL5. -/
theorem test_ldReg : after (withV 0x8010 [(1, 0x34)]) (fun t => t.getV 0 == 0x34) := by decide
/-- AL6 to AL8. -/
theorem test_or : after (withV 0x8011 [(0, 0x0C), (1, 0x0A), (0xF, 1)]) (fun t => t.getV 0 == 0x0E && t.getV 0xF == 1) := by
  decide
theorem test_and : after (withV 0x8012 [(0, 0x0C), (1, 0x0A), (0xF, 1)]) (fun t => t.getV 0 == 0x08 && t.getV 0xF == 1) := by
  decide
theorem test_xor : after (withV 0x8013 [(0, 0x0C), (1, 0x0A), (0xF, 1)]) (fun t => t.getV 0 == 0x06 && t.getV 0xF == 1) := by
  decide
/-- AL9, AL11. -/
theorem test_addReg : after (withV 0x8014 [(0, 0xFF), (1, 1)]) (fun t => t.getV 0 == 0 && t.getV 0xF == 1) := by decide
theorem test_addReg_into_flag : after (withV 0x8F14 [(0xF, 1), (1, 0xFF)]) (fun t => t.getV 0xF == 0) := by decide
/-- AL16, AL20. -/
theorem test_sub : after (withV 0x8015 [(0, 3), (1, 5)]) (fun t => t.getV 0 == 0xFE && t.getV 0xF == 0) := by decide
theorem test_sub_of_flag : after (withV 0x80F5 [(0, 5), (0xF, 3)]) (fun t => t.getV 0 == 4 && t.getV 0xF == 1) := by decide
/-- AL22, AL24. -/
theorem test_shr : after (withV 0x8016 [(0, 5), (1, 0xAA)]) (fun t => t.getV 0 == 2 && t.getV 0xF == 1) := by decide
theorem test_shr_flag : after (withV 0x8F16 [(0xF, 3)]) (fun t => t.getV 0xF == 0) := by decide
/-- AL25, AL30. -/
theorem test_subn : after (withV 0x8017 [(0, 3), (1, 5)]) (fun t => t.getV 0 == 2 && t.getV 0xF == 1) := by decide
theorem test_subn_of_flag : after (withV 0x80F7 [(0, 3), (0xF, 5)]) (fun t => t.getV 0 == 0xFE && t.getV 0xF == 1) := by
  decide
/-- AL31, AL33. -/
theorem test_shl : after (withV 0x801E [(0, 0x81), (1, 0xAA)]) (fun t => t.getV 0 == 2 && t.getV 0xF == 1) := by decide
theorem test_shl_flag : after (withV 0x8F1E [(0xF, 0x81)]) (fun t => t.getV 0xF == 2) := by decide
/-- AL36: whatever the random byte is; the draw is counted. -/
theorem test_rnd_mask_zero : ∃ t, step (withV 0xC000 [(0, 9)]) = .next t ∧ t.getV 0 = 0 ∧ t.rndDraws = 1 :=
  ⟨_, rfl, BitVec.and_zero, rfl⟩

/-- IM1. -/
theorem test_ldI : after (start 0xA123) (fun t => t.i == 0x123) := by decide
/-- IM4, IM5. -/
theorem test_addI : after ((withV 0xF01E [(0, 0xFF)]).setI 0xFFF) (fun t => t.i == 0x10FE && t.getV 0xF == 0) := by decide
theorem test_addI_wraps : after ((withV 0xF01E [(0, 2)]).setI 0xFFFF) (fun t => t.i == 1) := by decide
/-- IM6, IM9. -/
theorem test_ldF : after (withV 0xF029 [(0, 0x0A)]) (fun t => t.i == 0x32) := by decide
theorem test_ldF_not_masked : after (withV 0xF029 [(0, 0xFF)]) (fun t => t.i == 0x4FB) := by decide
/-- IM10, IM15. -/
theorem test_ldB : after ((withV 0xF533 [(5, 0x9C)]).setI 0x300)
    (fun t => Memory.readBytes t.mem 0x300 3 == [1, 5, 6]) := by decide
theorem test_ldB_low : faults ((withV 0xF533 [(5, 7)]).setI 0x1FF) 6 (some 0xF533) 0x1FF := by decide
/-- IM17, IM20. -/
theorem test_stRegs : after ((withV 0xF255 [(0, 1), (1, 2), (2, 3), (3, 4)]).setI 0x400)
    (fun t => Memory.readBytes t.mem 0x400 4 == [1, 2, 3, 0] && t.i == 0x400) := by decide
theorem test_stRegs_high : faults ((start 0xFF55).setI 0xFF1) 5 (some 0xFF55) 0x1000 := by decide
/-- IM25, IM27. -/
theorem test_ldRegs : after ((start 0xF465).setI 5)
    (fun t => t.firstRegs 5 == [0x20, 0x60, 0x20, 0x20, 0x70, 0] && t.i == 5) := by decide
theorem test_ldRegs_high : faults ((start 0xFF65).setI 0xFF1) 4 (some 0xFF65) 0x1000 := by decide

/-- DS17. -/
theorem test_cls : after ((lit (start 0x00E0) [(0, 0), (15, 32), (31, 63)]).setV 0xF 1)
    (fun t => t.disp == Display.blank && t.getV 0xF == 1) := by decide
/-- DS3, DS8. -/
theorem test_drw : after (lit (withV 0xD011 [(0, 5)]) [(0, 6)])
    (fun t => litIn t.disp [0, 1] [4, 5, 6, 7, 8, 9] == [(0, 5), (0, 7), (0, 8)] && t.getV 0xF == 1) := by decide
theorem test_drw_wraps : after (((withV 0xD011 [(0, 70), (1, 33)]).setMem
      (Memory.storeBytes (start 0xD011).mem 0x300 [0x81])).setI 0x300)
    (fun t => litIn t.disp [0, 1, 2] [5, 6, 7, 12, 13, 14] == [(1, 6), (1, 13)] && t.getV 0xF == 0) := by decide

/-- KT1, KT6. -/
theorem test_skp : after (hold (withV 0xE19E [(1, 5)]) [5]) (fun t => t.pc == 0x204) := by decide
theorem test_skp_no_key : faults (withV 0xE19E [(1, 0x10)]) 7 (some 0xE19E) 0x10 := by decide
/-- KT3, KT4. -/
theorem test_sknp : after (withV 0xE1A1 [(1, 5)]) (fun t => t.pc == 0x204) := by decide
theorem test_sknp_pressed : after (hold (withV 0xE1A1 [(1, 5)]) [5]) (fun t => t.pc == 0x202) := by decide
/-- KT9, KT10. -/
theorem test_ldVxK_waits : after (start 0xF30A) (fun t => t.pc == 0x200 && t.keyWait) := by decide
theorem test_ldVxK : after ((hold (start 0xF30A) [9]).setWait true)
    (fun t => t.getV 3 == 9 && !t.keyWait && t.pc == 0x202) := by decide
/-- KT13 to KT15. -/
theorem test_ldVxDt : after ((start 0xF307).setDt 0x2A) (fun t => t.getV 3 == 0x2A) := by decide
theorem test_ldDtVx : after (withV 0xF315 [(3, 0x3C)]) (fun t => t.dt == 0x3C) := by decide
theorem test_ldStVx : after (withV 0xF318 [(3, 1)]) (fun t => t.st == 1 && tone t && !tone (tick t)) := by decide

/-- FD1: an unknown word, its event, and nothing but the advance. -/
theorem test_unknown : after (start 0x0000) (fun t => t == { start 0 with pc := 0x202 }) ∧
    stepDiag (start 0x0000) = some ⟨0x200, 0x0000⟩ := by decide
/-- FD5, FD6. -/
theorem test_fetch_at_top : faults ((start 0x6001).setPc 0xFFF) 3 none 0x1000 := by decide
theorem test_fetch_above : faults ((start 0x6001).setPc 0x1000) 3 none 0x1000 := by decide
/-- FD7: an odd pc. -/
theorem test_fetch_odd : after ((State.reset.setPc 0x201).withFetchWord 16 0x6001)
    (fun t => t.getV 0 == 1 && t.pc == 0x203) := by decide
/-- TK1, TK2, TK4. -/
theorem test_tick : (tick (State.reset.setDt 3)).dt = 2 ∧ (tick (State.reset.setSt 1)).st = 0 ∧
    (tick ((State.reset.setDt 5).setRun .paused)).dt = 5 := by decide
/-- E1: the first bytes of an image, and the font. -/
theorem test_initialize : (match initializeCore [0x60, 0x05, 0xA0, 0x00] with
    | .ok s => Memory.readBytes s.mem 0x200 5 == [0x60, 0x05, 0xA0, 0x00, 0x00] && Memory.read s.mem 0x4F == 0x80
    | .error _ => false) = true := by decide
/-- An empty image gives the reset state (spec/10_state.md R20). -/
theorem test_initialize_empty : initializeCore [] = .ok State.reset := rfl
/-- The codes of spec/60_exceptions.md R223. -/
theorem test_fault_codes : [FaultCause.stackOverflow, .stackUnderflow, .memoryFetch, .memoryRead, .memoryWrite,
    .lowMemoryWrite, .keyIndex].map FaultCause.code = [1, 2, 3, 4, 5, 6, 7] ∧ faultCode State.reset = 0 := by decide

/-! ### Witnesses: for each obligation with hypotheses, values that meet them all -/

/-- The state of the witnesses that only ask for canonical memory. -/
theorem reset_canonical : MemoryCanonical State.reset := ⟨List.Pairwise.nil, fun _ h => nomatch h⟩

/-- All invariants hold of reset. -/
theorem reset_inv : Inv State.reset :=
  ⟨reset_canonical, fun _ _ => rfl, ⟨by decide, by decide, fun _ h => nomatch h⟩,
    ⟨(fun h => nomatch h), fun h => absurd rfl h⟩, fun h => nomatch h⟩

/-- A key wait at pc: FX0A has been found without a key. -/
def waiting : State := (start 0xF30A).setWait true

theorem waiting_at_wait : KeyWaitAtWait waiting := fun _ => ⟨3, by decide⟩

theorem witness_StepRunsDecodedInstruction : let s := (State.reset.setPc 0xFFE).withFetchWord 16 0x6005
    s.runState = .running ∧ s.pc.toNat ≤ 0xFFE ∧
    decode [Memory.read s.mem s.pc.toNat, Memory.read s.mem (s.pc.toNat + 1)] = .ok (.ldImm 0 5, []) := by decide

theorem witness_UnknownWordIsNoOp : let s := State.reset.setPc 0xFFE
    s.runState = .running ∧ s.pc.toNat ≤ 0xFFE ∧
    decodeWord (wordAt s s.pc.toNat) = .error (.unknownOpcode 0) := by decide

theorem witness_FetchChecksBothBytes : State.reset.runState = .running ∧
    (State.reset.setPc 0xFFE).pc.toNat + 1 ≤ 0xFFF ∧ 0xFFF < (State.reset.setPc 0xFFF).pc.toNat + 1 := by decide

theorem witness_StepOnlyWhenRunning : (State.reset.setRun .paused).runState ≠ .running := by decide

theorem witness_DecodeOfEncodeIsIdentity : (Instr.drw 15 15 15).wellFormed = true ∧ (Instr.jpV0 0xFFF).wellFormed = true := by
  decide

theorem witness_EncodeOfDecodeIsIdentity : decodeWord 0xFF65 = .ok (.ldRegs 15) := by decide

theorem witness_OpcodeMapSelectsAtMostOneRow : ∃ r ∈ opcodeRows, (0x8376 : Word) &&& r.mask = r.pattern :=
  ⟨⟨"SHR", 0xF00F, 0x8006, fun w => .shr (fieldX w) (fieldY w)⟩, by simp [opcodeRows, rowsAlu], by decide⟩

theorem witness_ReturnPopsIntoPc : (State.reset.setStack [0x206]).stack = [] ++ [0x206] ∧ State.reset.stack = [] := by decide

theorem witness_CallPushesReturnAddress :
    (State.reset.setStack (List.replicate 15 0x202)).stack.length < 16 ∧
    (State.reset.setStack (List.replicate 16 0x202)).stack.length = 16 := by decide

theorem witness_CallThenReturnComesBack : (State.reset.setStack (List.replicate 15 0x202)).stack.length < 16 := by decide

theorem witness_JumpWithOffsetIsExact : (Instr.jpV0 0xFFF).wellFormed = true := by decide

/-- Of FlagAliasTable (X = 0, Y = E), and of the clauses for X other than F of the statements about 8XY4 to 8XYE. -/
theorem witness_flag_operations : (0 : Reg) ≠ Reg.flag ∧ (14 : Reg) ≠ Reg.flag := by decide

theorem witness_RandomByteIsMasked : (0x0F : Byte).getLsbD 7 = false := by decide

theorem witness_DecimalDigitsAreStored : MemoryCanonical (State.reset.setI 0x200) ∧
    (0x200 ≤ (State.reset.setI 0x200).i.toNat ∧ (State.reset.setI 0xFFD).i.toNat + 2 ≤ 0xFFF) ∧
    0xFFF < (State.reset.setI 0xFFE).i.toNat + 2 ∧ (State.reset.setI 0x1FF).i.toNat < 0x200 :=
  ⟨reset_canonical, by decide⟩

/-- Also of StoreThenLoadRestoresRegisters and FetchSeesStoredBytes. -/
theorem witness_RegistersAreStored : MemoryCanonical (State.reset.setI 0xFF0) ∧
    (0x200 ≤ (State.reset.setI 0xFF0).i.toNat ∧ (State.reset.setI 0xFF0).i.toNat + (15 : Reg).toNat ≤ 0xFFF) ∧
    0xFFF < (State.reset.setI 0xFF1).i.toNat + (15 : Reg).toNat ∧ (State.reset.setI 0x1FF).i.toNat < 0x200 ∧
    1 ≤ (15 : Reg).toNat :=
  ⟨reset_canonical, by decide⟩

theorem witness_RegistersAreLoaded : (State.reset.setI 0xFF0).i.toNat + (15 : Reg).toNat ≤ 0xFFF ∧
    0xFFF < (State.reset.setI 0xFF1).i.toNat + (15 : Reg).toNat := by decide

theorem witness_MemoryWritePrimitive : Memory.wf [] ∧ Memory.wf [(0x200, 1), (0xFFF, 2)] := by decide

/-- The state of DS2 and DS13: glyph row F0 at I = 0, pixels (0, 0) to (0, 3) lit. -/
def drawn : State := lit (start 0xD011) [(0, 0), (0, 1), (0, 2), (0, 3)]

theorem witness_DrawXorsSpriteAndReportsCollision :
    min 0 (32 - (State.reset.getV 1).toNat % 32) = 0 ∧
    (State.reset.setI 0xFF1).i.toNat + min 15 (32 - (State.reset.getV 1).toNat % 32) ≤ 0x1000 ∧
    0x1000 < (State.reset.setI 0xFF2).i.toNat + min 15 (32 - (State.reset.getV 1).toNat % 32) ∧
    (spriteBit drawn.mem 0 0 0 1 0 3 = true ∧ Display.pixel drawn.disp 0 3 = true) := by decide

theorem witness_draw_without_collision : ∀ py px, py < 32 → px < 64 →
    spriteBit State.reset.mem 0 0 0 1 py px = true → Display.pixel State.reset.disp py px = false := by
  intro py px hy hx _
  simp [Display.pixel, State.reset, hy, hx]

theorem witness_CollisionIsAPixelTurnedOff : ∃ t, exec (.drw 0 1 1) drawn = .next t ∧ t.runState = drawn.runState ∧
    drawn.runState = .running := ⟨_, rfl, rfl, rfl⟩

/-- Also of SecondDrawAlwaysCollides. -/
theorem witness_DrawTwiceRestoresDisplay : (0 : Reg) ≠ Reg.flag ∧ (1 : Reg) ≠ Reg.flag ∧
    (State.reset.setI 0xFF1).i.toNat + 15 ≤ 0x1000 := by decide

/-- The state against which SecondDrawAlwaysCollides fails: the second draw of a sprite that stood on lit pixels only turns
pixels on, and by R182 does not collide (log entry 12). -/
theorem test_second_draw_on_lit_pixels : (match exec (.drw 0 1 1) drawn with
    | .next t => t.getV 0xF == 1 && (match exec (.drw 0 1 1) t with
      | .next u => u.getV 0xF == 0 && litIn u.disp [0] [0, 1, 2, 3, 4] == [(0, 0), (0, 1), (0, 2), (0, 3)]
      | _ => false)
    | _ => false) = true := by decide

theorem witness_DrawDependsOnItsInputsOnly : let s := State.reset; let u := (State.reset.setV 5 1).setDt 3
    s.disp = u.disp ∧ s.getV 0 = u.getV 0 ∧ s.getV 1 = u.getV 1 ∧
    (∀ k, k < 15 → Memory.read s.mem (s.i.toNat + k) = Memory.read u.mem (u.i.toNat + k)) ∧
    s.i.toNat + 15 ≤ 0x1000 ∧ u.i.toNat + 15 ≤ 0x1000 :=
  ⟨rfl, by decide, by decide, fun _ _ => rfl, by decide, by decide⟩

theorem witness_KeySkipsReadTheLatch : ((State.reset.setV 1 0xF).getV 1).toNat = (15 : Fin 16).val ∧
    0xF < ((State.reset.setV 1 0x10).getV 1).toNat := by decide

theorem witness_KeyWaitRewindsOrTakesAPressedKey : (∀ k : Fin 16, State.reset.keys[k] = false) ∧
    (hold State.reset [15]).keys[(15 : Fin 16)] = true := by decide

/-- Also of EveryInstructionKeepsItsFrame. -/
theorem witness_OnlyListedInstructionsFault : State.reset.runState = .running ∧ MemoryCanonical State.reset ∧
    ∃ t, step State.reset = .next t := ⟨rfl, reset_canonical, _, rfl⟩

theorem witness_FaultsArePreciseAndTerminal : (start 0x00EE).runState = .running ∧
    ∃ t, step (start 0x00EE) = .next t ∧ t.runState ≠ .running := ⟨rfl, _, rfl, by decide⟩

theorem witness_RunStateTransitions : initializeCore [] = .ok State.reset := rfl

theorem witness_TerminalStatesAreFrozen : (quit State.reset).runState = .haltedQuit ∧
    (State.reset.raise none ⟨.memoryFetch, 0x1000⟩).runState = .faulted := by decide

theorem witness_SoundTimerAndKeyWaitAreNotRead : ∃ t, exec (.ldVxK 0) State.reset = .next t := ⟨_, rfl⟩

/-- Of MemoryCanonicalIsKept, LowMemoryIsNeverWritten and PcAndStackStayBounded. -/
theorem witness_step_invariants : Inv State.reset ∧ ∃ t, step State.reset = .next t := ⟨reset_inv, _, rfl⟩

theorem witness_KeyWaitStaysAtItsInstruction : waiting.keyWait = true ∧ KeyWaitAtWait waiting ∧
    ∃ t, step waiting = .next t := ⟨rfl, waiting_at_wait, _, rfl⟩

theorem witness_EveryScheduleKeepsInvariants : Inv State.reset ∧ (∃ t, interact .pause State.reset = .next t) ∧
    initializeCore [] = .ok State.reset := ⟨reset_inv, ⟨_, rfl⟩, rfl⟩

theorem witness_InitializeBuildsTheResetState : (List.replicate 3584 (0xFF : Byte)).length ≤ 3584 ∧
    3584 < (List.replicate 3585 (0xFF : Byte)).length := by
  rw [List.length_replicate, List.length_replicate]
  omega

theorem witness_TickCountsDownWhenRunning : State.reset.runState = .running ∧
    (State.reset.setRun .paused).runState ≠ .running := by decide

theorem witness_FrameRunsStepsThenOneTick : (pause State.reset).runState ≠ .running := by decide

theorem witness_DoneStateOnlyTicks : done (start 0x1200) = true ∧
    ∀ e ∈ [Interaction.step, .tick, .step], e = .step ∨ e = .tick := by decide

end Sys2Proof.Tests
end

section
/-! PROOFS. What an instruction can do: an equation for each case of the ones that can fault or wait, and the frame of
each update of the state. -/

namespace Sys2Proof.Machine

/-! ### The instructions with more than one case, case by case -/

/-- RET on an empty stack (spec/40_control_flow.md R101). -/
theorem exec_ret_of_empty (s : State) (h : s.stack = []) :
    exec .ret s = .next (s.raise (some (encode .ret)) ⟨.stackUnderflow, 0⟩) := by
  simp [exec, execRet, s.advance.pop_error h]

/-- RET on a stack whose newest entry is a (R101). -/
theorem exec_ret_of_concat (s : State) (l : List Word) (a : Word) (h : s.stack = l ++ [a]) :
    exec .ret s = .next ((s.advance.setStack l).setPc a) := by
  simp [exec, execRet, s.advance.pop_ok l a h]

/-- CALL with room on the stack (R103). -/
theorem exec_call_of_lt (s : State) (nnn : Word) (h : s.stack.length < 16) :
    exec (.call nnn) s = .next ((s.advance.setStack (s.stack ++ [s.pc + 2])).setPc nnn) := by
  simp [exec, execCall, s.advance.push_ok _ h]

/-- CALL on a full stack (R103). -/
theorem exec_call_of_full (s : State) (nnn : Word) (h : 16 ≤ s.stack.length) :
    exec (.call nnn) s =
      .next (s.raise (some (encode (.call nnn))) ⟨.stackOverflow, BitVec.ofNat 16 s.stack.length⟩) := by
  simp [exec, execCall, s.advance.push_error _ h]

/-- The canvas DRW leaves when it has read the sprite's bytes (spec/43_display.md R182). -/
def State.drawnCanvas (s : State) (x y : Reg) (bytes : List Byte) : Canvas :=
  Canvas.drawRows ⟨s.disp, false⟩ (s.spriteX x) (s.spriteY y) bytes

/-- DRW whose sprite is in memory (R182). -/
theorem exec_drw_of_ok (s : State) (x y : Reg) (n : Nat) (bytes : List Byte)
    (h : readBlock .memoryRead s.mem s.i.toNat (drawnRows (s.spriteY y) n) = .ok bytes) :
    exec (.drw x y n) s = .next ((s.advance.setFlag (collision (s.drawnCanvas x y bytes).hit)).setDisp
      (s.drawnCanvas x y bytes).disp) := by
  simp [exec, execDrw, State.drawnCanvas, h]

/-- DRW whose sprite leaves memory (R182). -/
theorem exec_drw_of_error (s : State) (x y : Reg) (n : Nat) (f : Trap)
    (h : readBlock .memoryRead s.mem s.i.toNat (drawnRows (s.spriteY y) n) = .error f) :
    exec (.drw x y n) s = .next (s.raise (some (encode (.drw x y n))) f) := by
  simp [exec, execDrw, h]

/-- FX65 from a block in memory (spec/42_index_memory.md R166). -/
theorem exec_ldRegs_of_ok (s : State) (x : Reg) (bytes : List Byte)
    (h : readBlock .memoryRead s.mem s.i.toNat (x.toNat + 1) = .ok bytes) :
    exec (.ldRegs x) s = .next (s.advance.setRegs (loadFrom s.v 0 bytes)) := by
  simp [exec, execLdRegs, h]

/-- FX65 from a block that leaves memory (R166). -/
theorem exec_ldRegs_of_error (s : State) (x : Reg) (f : Trap)
    (h : readBlock .memoryRead s.mem s.i.toNat (x.toNat + 1) = .error f) :
    exec (.ldRegs x) s = .next (s.raise (some (encode (.ldRegs x))) f) := by
  simp [exec, execLdRegs, h]

/-- A store from I on whose checks pass (R164, R165). -/
theorem State.storeAtI_of_ok (s : State) (i : Instr) (bytes : List Byte) (m : Memory)
    (h : writeBlock s.mem s.i.toNat bytes = .ok m) : s.storeAtI i bytes = .next (s.advance.setMem m) := by
  simp [State.storeAtI, h]

/-- A store from I on that a check refuses (R164, R165). -/
theorem State.storeAtI_of_error (s : State) (i : Instr) (bytes : List Byte) (f : Trap)
    (h : writeBlock s.mem s.i.toNat bytes = .error f) :
    s.storeAtI i bytes = .next (s.raise (some (encode i)) f) := by
  simp [State.storeAtI, h]

/-- FX0A with no key pressed: only KeyWait changes (spec/44_keypad_timer_ops.md R204). -/
theorem exec_ldVxK_of_none (s : State) (x : Reg) (h : s.pressed = []) :
    exec (.ldVxK x) s = .next (s.setWait true) := by
  have hpc : s.advance.setPc (s.advance.pc - 2) = s := by
    simp [State.setPc, State.advance]
  simp only [exec, execLdVxK, h, hpc]

/-- FX0A with a key pressed takes one of the pressed keys and ends the wait (R204). -/
theorem exec_ldVxK_of_pressed (s : State) (x : Reg) (h : s.pressed ≠ []) :
    ∃ k ∈ s.pressed, exec (.ldVxK x) s = .next ((s.advance.setV x (BitVec.ofNat 8 k)).setWait false).countPick := by
  obtain ⟨k, ks, hp⟩ := List.exists_cons_of_ne_nil h
  exact ⟨_, hp ▸ chooseKey_mem k ks (Config.freeKeyPick s.keyPicks), by simp only [exec, execLdVxK, hp]⟩

/-! ### The frame of each update -/

/-- Two changes one after the other touch the parts of both. -/
theorem ChangesOnly.seq {ps qs : List Part} {s t u : State} (h : ChangesOnly ps s t) (h' : ChangesOnly qs t u) :
    ChangesOnly (ps ++ qs) s u :=
  (h.mono _ _ _ _ fun _ => List.mem_append_left qs).trans _ _ _ _ (h'.mono _ _ _ _ fun _ => List.mem_append_right ps)

theorem State.setPc_frame (s : State) (a : Word) : ChangesOnly [.pc] s (s.setPc a) := by
  intro p hp
  cases p with
  | pc => simp at hp
  | _ => rfl

theorem State.advance_frame (s : State) : ChangesOnly [.pc] s s.advance := s.setPc_frame (s.pc + 2)

theorem State.setI_frame (s : State) (a : Word) : ChangesOnly [.i] s (s.setI a) := by
  intro p hp
  cases p with
  | i => simp at hp
  | _ => rfl

theorem State.setV_frame (s : State) (r : Reg) (b : Byte) : ChangesOnly [.v r] s (s.setV r b) := by
  intro p hp
  cases p with
  | v q =>
    have hq : q ≠ r := by simpa using hp
    simp [Part.same, hq]
  | _ => rfl

theorem State.setStack_frame (s : State) (l : List Word) : ChangesOnly [.stack] s (s.setStack l) := by
  intro p hp
  cases p with
  | stack => simp at hp
  | _ => rfl

theorem State.setDt_frame (s : State) (b : Byte) : ChangesOnly [.dt] s (s.setDt b) := by
  intro p hp
  cases p with
  | dt => simp at hp
  | _ => rfl

theorem State.setSt_frame (s : State) (b : Byte) : ChangesOnly [.st] s (s.setSt b) := by
  intro p hp
  cases p with
  | st => simp at hp
  | _ => rfl

theorem State.setDisp_frame (s : State) (d : Display) : ChangesOnly [.disp] s (s.setDisp d) := by
  intro p hp
  cases p with
  | disp => simp at hp
  | _ => rfl

theorem State.setWait_frame (s : State) (b : Bool) : ChangesOnly [.keyWait] s (s.setWait b) := by
  intro p hp
  cases p with
  | keyWait => simp at hp
  | _ => rfl

theorem State.countDraw_frame (s : State) : ChangesOnly [.rndDraws] s s.countDraw := by
  intro p hp
  cases p with
  | rndDraws => simp at hp
  | _ => rfl

theorem State.countPick_frame (s : State) : ChangesOnly [.keyPicks] s s.countPick := by
  intro p hp
  cases p with
  | keyPicks => simp at hp
  | _ => rfl

/-- Loading x + 1 bytes from V[0] on touches V[0] to V[x] only (spec/42_index_memory.md R166). -/
theorem State.setRegs_loadFrom_frame (s : State) (x : Reg) (bytes : List Byte) (h : bytes.length = x.toNat + 1) :
    ChangesOnly (regParts x) s (s.setRegs (loadFrom s.v 0 bytes)) := by
  intro p hp
  cases p with
  | v r =>
    have hr : ¬ r.toNat < 0 + bytes.length := by
      rw [mem_regParts] at hp
      omega
    simp only [Part.same, State.getV_setRegs, loadFrom_getElem, hr, and_false, dif_neg, not_false_eq_true]
    rfl
  | _ => rfl

/-- A block store changes no byte outside its block, whether or not it ends in memory. -/
theorem Memory.read_storeBytes_outside (bytes : List Byte) : ∀ (m : Memory) (a c : Nat), Memory.wf m →
    ¬ (a ≤ c ∧ c < a + bytes.length) → Memory.read (Memory.storeBytes m a bytes) c = Memory.read m c := by
  induction bytes with
  | nil => intros; rfl
  | cons b bs ih =>
    intro m a c hm hc
    simp only [List.length_cons] at hc
    rw [Memory.storeBytes, ih _ _ _ (Memory.store_wf m hm a b) (by omega), Memory.read_store_ne m hm a c b (by omega)]

/-- A block stored in canonical memory touches the bytes of the block only (spec/20_memory.md R60). -/
theorem State.setMem_storeBytes_frame (s : State) (hm : MemoryCanonical s) (a : Nat) (bytes : List Byte) :
    ChangesOnly (memParts a bytes.length) s (s.setMem (Memory.storeBytes s.mem a bytes)) := by
  intro p hp
  cases p with
  | mem c => exact Memory.read_storeBytes_outside bytes s.mem a c hm (by rwa [mem_memParts] at hp)
  | _ => rfl

end Sys2Proof.Machine
end

section
/-! PROOFS. Once for all instructions: an instruction completes within its frame, its stored bytes written from I on, or
takes a fault it may take. The frame, the canonical form of memory and the key wait follow. -/

namespace Sys2Proof.Machine

/-! ### Everything an instruction can do -/

/-- The bytes an instruction stores from I on when it completes (spec/20_memory.md R53): FX33 and FX55 only. -/
def storedBytes (s : State) (i : Instr) : List Byte :=
  match i with
  | .ldB x => bcdDigits (s.getV x)
  | .stRegs x => s.firstRegs x
  | _ => []

/-- The instruction completes in t: memory has its stored bytes, which lie at writable addresses, and beside memory only
its written parts change. No premise on s: the frame is read from s with t's memory. -/
structure Completes (i : Instr) (s t : State) : Prop where
  next : exec i s = .next t
  mem_eq : t.mem = Memory.storeBytes s.mem s.i.toNat (storedBytes s i)
  writable : storedBytes s i ≠ [] → 0x200 ≤ s.i.toNat ∧ s.i.toNat + (storedBytes s i).length ≤ 0x1000
  frame : ChangesOnly (writtenParts s i) (s.setMem t.mem) t

/-- The two ways an instruction ends. -/
def CompletesOrFaults (i : Instr) (s : State) : Prop :=
  (∃ t, Completes i s t) ∨ ∃ cause info, canRaise i cause = true ∧ TakesFault i s cause info

/-- An instruction that stores nothing completes when its frame holds. -/
theorem completes_of_frame (i : Instr) (s t : State) (ps : List Part) (hnext : exec i s = .next t)
    (hnone : storedBytes s i = []) (hmem : t.mem = s.mem) (hps : ChangesOnly ps s t)
    (hsub : ∀ p ∈ ps, p ∈ writtenParts s i) : CompletesOrFaults i s := by
  refine .inl ⟨t, hnext, by rw [hnone]; exact hmem, fun h => absurd hnone h, ?_⟩
  rw [hmem]
  exact hps.mono _ _ _ _ hsub

/-- Taking a trap the instruction may raise is one of the two ways. -/
theorem faults_of_raise (i : Instr) (s : State) (f : Trap) (hcan : canRaise i f.cause = true)
    (h : exec i s = .next (s.raise (some (encode i)) f)) : CompletesOrFaults i s :=
  .inr ⟨f.cause, f.info, hcan, h⟩

/-- A skip completes (spec/40_control_flow.md R100). -/
theorem skipIf_completes (i : Instr) (s : State) (c : Bool) (hnext : exec i s = s.skipIf c)
    (hnone : storedBytes s i = []) (hpc : .pc ∈ writtenParts s i) : CompletesOrFaults i s :=
  completes_of_frame i s _ _ (hnext.trans (s.skipIf_eq c)) hnone rfl (s.setPc_frame _) (by simpa using hpc)

/-- A key skip completes, or takes the fault of a register that names no key (spec/44_keypad_timer_ops.md R200). -/
theorem skipOnKey_completesOrFaults (i : Instr) (s : State) (x : Reg) (want : Bool)
    (hexec : exec i s = s.skipOnKey i x want) (hnone : storedBytes s i = []) (hpc : .pc ∈ writtenParts s i)
    (hcan : canRaise i .keyIndex = true) : CompletesOrFaults i s := by
  rcases s.skipOnKey_cases i x want with ⟨-, h⟩ | ⟨-, h⟩
  · exact completes_of_frame i s _ _ (hexec.trans h) hnone rfl (s.setPc_frame _) (by simpa using hpc)
  · exact faults_of_raise i s _ hcan (hexec.trans h)

/-- A store from I on completes with its bytes written, or takes one of the two write faults (spec/42_index_memory.md
R164, R165). -/
theorem storeAtI_completesOrFaults (i : Instr) (s : State) (hne : storedBytes s i ≠ [])
    (hexec : exec i s = s.storeAtI i (storedBytes s i)) (hpc : .pc ∈ writtenParts s i)
    (hrange : canRaise i .memoryWrite = true) (hlow : canRaise i .lowMemoryWrite = true) : CompletesOrFaults i s := by
  rcases s.storeAtI_cases i (storedBytes s i) hne with ⟨h1, h2, h⟩ | ⟨-, h⟩ | ⟨-, -, h⟩
  · exact .inl ⟨_, hexec.trans h, rfl, fun _ => ⟨h1, h2⟩,
      (State.advance_frame (s.setMem _)).mono _ _ _ _ (by simpa using hpc)⟩
  · exact faults_of_raise i s _ hrange (hexec.trans h)
  · exact faults_of_raise i s _ hlow (hexec.trans h)

theorem ret_completesOrFaults (s : State) : CompletesOrFaults .ret s := by
  rcases List.eq_nil_or_concat s.stack with h | ⟨l, a, h⟩
  · exact faults_of_raise _ s _ rfl (exec_ret_of_empty s h)
  · exact completes_of_frame _ s _ _ (exec_ret_of_concat s l a (by simpa using h)) rfl rfl
      ((s.advance_frame.seq (State.setStack_frame _ l)).seq (State.setPc_frame _ a)) (by simp [writtenParts])

theorem call_completesOrFaults (s : State) (nnn : Word) : CompletesOrFaults (.call nnn) s := by
  by_cases h : s.stack.length < 16
  · exact completes_of_frame _ s _ _ (exec_call_of_lt s nnn h) rfl rfl
      ((s.advance_frame.seq (State.setStack_frame _ _)).seq (State.setPc_frame _ nnn)) (by simp [writtenParts])
  · exact faults_of_raise _ s _ rfl (exec_call_of_full s nnn (by omega))

theorem drw_completesOrFaults (s : State) (x y : Reg) (n : Nat) : CompletesOrFaults (.drw x y n) s := by
  rcases readBlock_cases .memoryRead s.mem s.i.toNat (drawnRows (s.spriteY y) n) with ⟨-, h⟩ | ⟨-, -, h⟩
  · exact completes_of_frame _ s _ _ (exec_drw_of_ok s x y n _ h) rfl rfl
      ((s.advance_frame.seq (State.setV_frame _ _ _)).seq (State.setDisp_frame _ _)) (by simp [writtenParts])
  · exact faults_of_raise _ s _ rfl (exec_drw_of_error s x y n _ h)

theorem ldRegs_completesOrFaults (s : State) (x : Reg) : CompletesOrFaults (.ldRegs x) s := by
  rcases readBlock_cases .memoryRead s.mem s.i.toNat (x.toNat + 1) with ⟨-, h⟩ | ⟨-, -, h⟩
  · exact completes_of_frame _ s _ _ (exec_ldRegs_of_ok s x _ h) rfl rfl
      (s.advance_frame.seq (State.setRegs_loadFrom_frame s.advance x _ (Memory.readBytes_length _ _ _)))
      (by simp [writtenParts])
  · exact faults_of_raise _ s _ rfl (exec_ldRegs_of_error s x _ h)

theorem ldVxK_completes (s : State) (x : Reg) : CompletesOrFaults (.ldVxK x) s := by
  by_cases h : s.pressed = []
  · exact completes_of_frame _ s _ _ (exec_ldVxK_of_none s x h) rfl rfl (s.setWait_frame true) (by simp [writtenParts])
  · obtain ⟨k, -, hk⟩ := exec_ldVxK_of_pressed s x h
    exact completes_of_frame _ s _ _ hk rfl rfl
      (((s.advance_frame.seq (State.setV_frame _ x _)).seq (State.setWait_frame _ false)).seq (State.countPick_frame _))
      (by simp [writtenParts])

/-- Everything an instruction can do, in every state. -/
theorem exec_cases (i : Instr) (s : State) : CompletesOrFaults i s := by
  cases i with
  | cls =>
    exact completes_of_frame _ s _ _ rfl rfl rfl (s.advance_frame.seq (State.setDisp_frame _ _))
      (by simp [writtenParts])
  | ret => exact ret_completesOrFaults s
  | call nnn => exact call_completesOrFaults s nnn
  | jp | jpV0 => exact completes_of_frame _ s _ _ rfl rfl rfl (s.setPc_frame _) (by simp [writtenParts])
  | seImm | sneImm | seReg | sneReg => exact skipIf_completes _ s _ rfl rfl (by simp [writtenParts])
  | ldImm | addImm | ldReg | orReg | andReg | xorReg | ldVxDt =>
    exact completes_of_frame _ s _ _ rfl rfl rfl (s.advance_frame.seq (State.setV_frame _ _ _)) (by simp [writtenParts])
  | addReg | sub | shr | subn | shl =>
    exact completes_of_frame _ s _ _ rfl rfl rfl
      ((s.advance_frame.seq (State.setV_frame _ Reg.flag _)).seq (State.setV_frame _ _ _)) (by simp [writtenParts])
  | ldI | addI | ldF =>
    exact completes_of_frame _ s _ _ rfl rfl rfl (s.advance_frame.seq (State.setI_frame _ _)) (by simp [writtenParts])
  | rnd =>
    exact completes_of_frame _ s _ _ rfl rfl rfl
      ((s.advance_frame.seq (State.setV_frame _ _ _)).seq (State.countDraw_frame _)) (by simp [writtenParts])
  | drw x y n => exact drw_completesOrFaults s x y n
  | skp | sknp => exact skipOnKey_completesOrFaults _ s _ _ rfl rfl (by simp [writtenParts]) rfl
  | ldVxK x => exact ldVxK_completes s x
  | ldDtVx =>
    exact completes_of_frame _ s _ _ rfl rfl rfl (s.advance_frame.seq (State.setDt_frame _ _)) (by simp [writtenParts])
  | ldStVx =>
    exact completes_of_frame _ s _ _ rfl rfl rfl (s.advance_frame.seq (State.setSt_frame _ _)) (by simp [writtenParts])
  | ldB | stRegs =>
    exact storeAtI_completesOrFaults _ s (List.ne_nil_of_length_pos (by simp [storedBytes])) rfl
      (by simp [writtenParts]) rfl rfl
  | ldRegs x => exact ldRegs_completesOrFaults s x

/-! ### Frame -/

/-- The bytes an instruction stores are among its written parts. -/
theorem storedParts_written (s : State) (i : Instr) :
    ∀ p ∈ memParts s.i.toNat (storedBytes s i).length, p ∈ writtenParts s i := by
  intro p hp
  cases i with
  | ldB x => exact List.mem_cons_of_mem _ hp
  | stRegs x => exact List.mem_cons_of_mem _ (by simpa [storedBytes] using hp)
  | _ => simp [storedBytes, memParts] at hp

/-- From canonical memory, the bytes of memory are in the frame too. -/
theorem Completes.changesOnly {i : Instr} {s t : State} (h : Completes i s t) (hm : MemoryCanonical s) :
    ChangesOnly (writtenParts s i) s t := by
  have hstore := s.setMem_storeBytes_frame hm s.i.toNat (storedBytes s i)
  rw [← h.mem_eq] at hstore
  exact (hstore.mono _ _ _ _ (storedParts_written s i)).trans _ _ _ _ h.frame

/-! ### Canonical memory -/

/-- A step leaves memory as it was or stores a block from I on; a fault stores nothing (R57). -/
theorem step_mem (s t : State) (h : step s = .next t) :
    ∃ bytes, t.mem = Memory.storeBytes s.mem s.i.toNat bytes := by
  rcases step_cases s with ⟨-, hs⟩ | ⟨-, -, hs⟩ | ⟨-, -, w, i, -, -, hs⟩ | ⟨-, -, w, -, -, hs⟩
  · cases hs.symm.trans h
    exact ⟨[], rfl⟩
  · cases hs.symm.trans h
    exact ⟨[], rfl⟩
  · rcases exec_cases i s with ⟨u, hu⟩ | ⟨cause, info, -, hf⟩
    · cases hu.next.symm.trans (hs.symm.trans h)
      exact ⟨_, hu.mem_eq⟩
    · cases hf.symm.trans (hs.symm.trans h)
      exact ⟨[], rfl⟩
  · cases hs.symm.trans h
    exact ⟨[], rfl⟩

/-! ### The key wait -/

/-- Only FX0A writes KeyWait (spec/10_state.md R37). -/
theorem keyWait_not_written (s : State) (i : Instr) (hi : ∀ x, i ≠ .ldVxK x) : .keyWait ∉ writtenParts s i := by
  cases i with
  | ldVxK x => exact absurd rfl (hi x)
  | ldB | stRegs => simp [writtenParts, not_mem_memParts]
  | ldRegs => simp [writtenParts, not_mem_regParts]
  | _ => simp [writtenParts]

/-- Every other instruction keeps KeyWait, also when it faults. -/
theorem exec_keyWait (i : Instr) (s t : State) (hi : ∀ x, i ≠ .ldVxK x) (h : exec i s = .next t) :
    t.keyWait = s.keyWait := by
  rcases exec_cases i s with ⟨u, hu⟩ | ⟨cause, info, -, hf⟩
  · cases hu.next.symm.trans h
    exact hu.frame .keyWait (keyWait_not_written s i hi)
  · cases hf.symm.trans h
    rfl

/-- The word of an FX0A decodes to it. -/
theorem decodeWord_encode_ldVxK (x : Reg) : decodeWord (encode (.ldVxK x)) = .ok (.ldVxK x) := by
  have hrow := decodeWord_of_row ⟨"LD_VX_K", 0xF0FF#16, 0xF00A#16, fun w => .ldVxK (fieldX w)⟩
    (by simp [opcodeRows, rowsF]) (encode (.ldVxK x)) (beq_iff_eq.2 (Laws.EncodesInRow.ldVxK x rfl))
  rw [hrow]
  simp only [encode, fieldX_wordXNN 0xF x _ (by decide)]

/-- The one row of the map that builds an FX0A. -/
theorem row_of_build_ldVxK (w : Word) (x : Reg) : ∀ r ∈ opcodeRows, r.build w = .ldVxK x →
    r.mask = 0xF0FF#16 ∧ r.pattern = 0xF00A#16 ∧ fieldX w = x := by
  simp [opcodeRows, rowsLow, rowsAlu, rowsMid, rowsF]

/-- A word that decodes to an FX0A is its encoding. -/
theorem eq_encode_of_decodeWord_ldVxK (w : Word) (x : Reg) (h : decodeWord w = .ok (.ldVxK x)) :
    w = encode (.ldVxK x) := by
  rcases decodeWord_cases w with ⟨r, hr, hsel, hd⟩ | ⟨-, hd⟩
  · obtain ⟨hmask, hpat, rfl⟩ := row_of_build_ldVxK w x r hr (Except.ok.inj (hd.symm.trans h))
    have hbits : w.toNat / 4096 * 4096 + w.toNat % 256 = 0xF00A := by
      rw [← toNat_and_top_byte, ← hmask, beq_iff_eq.1 hsel, hpat]
      rfl
    apply BitVec.eq_of_toNat_eq
    simp only [encode, toNat_wordXNN 0xF _ _ (by decide : 0xF < 16), toNat_fieldX, BitVec.toNat_ofNat,
      BitVec.ofNat_eq_ofNat]
    omega
  · simp [hd] at h

/-- Where no FX0A is fetched, the invariant says that no key is waited for. -/
theorem KeyWaitAtWait.keyWait_eq_false {s : State} (hk : KeyWaitAtWait s)
    (hno : ∀ x, s.fetch ≠ .ok (encode (.ldVxK x))) : s.keyWait = false := by
  by_contra hw
  obtain ⟨x, hx⟩ := hk (by simpa using hw)
  exact hno x hx

/-- A fetched word that does not decode to an FX0A is no FX0A's. -/
theorem fetch_ne_ldVxK {s : State} {w : Word} (hw : s.fetch = .ok w) (hd : ∀ x, decodeWord w ≠ .ok (.ldVxK x))
    (x : Reg) : s.fetch ≠ .ok (encode (.ldVxK x)) := by
  intro hx
  obtain rfl : w = encode (.ldVxK x) := Except.ok.inj (hw.symm.trans hx)
  exact hd x (decodeWord_encode_ldVxK x)

/-- A state that waits for no key meets the invariant. -/
theorem keyWaitAtWait_of_not_waiting {s : State} (h : s.keyWait = false) : KeyWaitAtWait s :=
  fun hw => absurd (h.symm.trans hw) Bool.false_ne_true

/-- FX0A waits at its own word or waits no more (spec/44_keypad_timer_ops.md R204). -/
theorem exec_ldVxK_keyWaitAtWait (s t : State) (x : Reg) (hw : s.fetch = .ok (encode (.ldVxK x)))
    (h : exec (.ldVxK x) s = .next t) : KeyWaitAtWait t := by
  by_cases hp : s.pressed = []
  · cases (exec_ldVxK_of_none s x hp).symm.trans h
    exact fun _ => ⟨x, hw⟩
  · obtain ⟨k, -, hk⟩ := exec_ldVxK_of_pressed s x hp
    cases hk.symm.trans h
    exact keyWaitAtWait_of_not_waiting rfl

end Sys2Proof.Machine
end

section
/-! PROOFS. Noninterference of the sound timer and KeyWait: replacing them before an instruction changes its outcome by
such a replacement at most. -/

namespace Sys2Proof.Machine

/-- The state with another sound timer and KeyWait. -/
abbrev State.withStWait (s : State) (b : Byte) (w : Bool) : State := (s.setSt b).setWait w

/-- The outcome with its next state changed by f. -/
def onNext (f : State → State) : Host.Outcome State Fault Refusal → Host.Outcome State Fault Refusal
  | .next t => .next (f t)
  | .fault r => .fault r
  | .refused r => .refused r

/-- Replacing the sound timer and KeyWait before the instruction is replacing them, maybe by others, after it. -/
def ReadsNoStWait (i : Instr) : Prop :=
  ∀ (s : State) (b : Byte) (w : Bool), ∃ b' w',
    exec i (s.withStWait b w) = onNext (fun t => t.withStWait b' w') (exec i s)

section
variable (s : State) (b : Byte) (w : Bool)

theorem skipIf_withStWait (c : Bool) :
    (s.withStWait b w).skipIf c = onNext (fun t => t.withStWait b w) (s.skipIf c) := by
  rw [State.skipIf_eq, State.skipIf_eq]
  rfl

theorem skipOnKey_withStWait (i : Instr) (x : Reg) (want : Bool) :
    (s.withStWait b w).skipOnKey i x want = onNext (fun t => t.withStWait b w) (s.skipOnKey i x want) := by
  rcases s.skipOnKey_cases i x want with ⟨hv, h⟩ | ⟨hv, h⟩
  · rw [h, State.skipOnKey, (s.withStWait b w).keyIndex_ok x hv]
    exact State.skipIf_eq _ _
  · rw [h, State.skipOnKey, (s.withStWait b w).keyIndex_error x hv]
    rfl

theorem storeAtI_withStWait (i : Instr) (bytes : List Byte) :
    (s.withStWait b w).storeAtI i bytes = onNext (fun t => t.withStWait b w) (s.storeAtI i bytes) := by
  cases h : writeBlock s.mem s.i.toNat bytes with
  | ok m =>
    rw [s.storeAtI_of_ok i bytes m h, (s.withStWait b w).storeAtI_of_ok i bytes m h]
    rfl
  | error f =>
    rw [s.storeAtI_of_error i bytes f h, (s.withStWait b w).storeAtI_of_error i bytes f h]
    rfl

end

theorem ret_readsNoStWait : ReadsNoStWait .ret := by
  intro s b w
  refine ⟨b, w, ?_⟩
  rcases List.eq_nil_or_concat s.stack with h | ⟨l, a, h⟩
  · rw [exec_ret_of_empty s h, exec_ret_of_empty (s.withStWait b w) h]
    rfl
  · rw [List.concat_eq_append] at h
    rw [exec_ret_of_concat s l a h, exec_ret_of_concat (s.withStWait b w) l a h]
    rfl

theorem call_readsNoStWait (nnn : Word) : ReadsNoStWait (.call nnn) := by
  intro s b w
  refine ⟨b, w, ?_⟩
  by_cases h : s.stack.length < 16
  · rw [exec_call_of_lt s nnn h, exec_call_of_lt (s.withStWait b w) nnn h]
    rfl
  · rw [exec_call_of_full s nnn (by omega), exec_call_of_full (s.withStWait b w) nnn (Nat.le_of_not_lt h)]
    rfl

theorem drw_readsNoStWait (x y : Reg) (n : Nat) : ReadsNoStWait (.drw x y n) := by
  intro s b w
  refine ⟨b, w, ?_⟩
  cases h : readBlock .memoryRead s.mem s.i.toNat (drawnRows (s.spriteY y) n) with
  | ok bytes =>
    rw [exec_drw_of_ok s x y n bytes h, exec_drw_of_ok (s.withStWait b w) x y n bytes h]
    rfl
  | error f =>
    rw [exec_drw_of_error s x y n f h, exec_drw_of_error (s.withStWait b w) x y n f h]
    rfl

theorem ldRegs_readsNoStWait (x : Reg) : ReadsNoStWait (.ldRegs x) := by
  intro s b w
  refine ⟨b, w, ?_⟩
  cases h : readBlock .memoryRead s.mem s.i.toNat (x.toNat + 1) with
  | ok bytes =>
    rw [exec_ldRegs_of_ok s x bytes h, exec_ldRegs_of_ok (s.withStWait b w) x bytes h]
    rfl
  | error f =>
    rw [exec_ldRegs_of_error s x f h, exec_ldRegs_of_error (s.withStWait b w) x f h]
    rfl

/-- FX0A writes KeyWait whatever it was: both runs end with the same one. -/
theorem ldVxK_readsNoStWait (x : Reg) : ReadsNoStWait (.ldVxK x) := by
  intro s b w
  cases h : s.pressed with
  | nil =>
    rw [exec_ldVxK_of_none s x h, exec_ldVxK_of_none (s.withStWait b w) x h]
    exact ⟨b, true, rfl⟩
  | cons k ks =>
    have h' : (s.withStWait b w).pressed = k :: ks := h
    simp only [exec, execLdVxK, h, h']
    exact ⟨b, false, rfl⟩

/-- No instruction reads the sound timer or KeyWait (spec/10_state.md R31, R37). -/
theorem exec_readsNoStWait (i : Instr) : ReadsNoStWait i := by
  cases i with
  | ret => exact ret_readsNoStWait
  | call nnn => exact call_readsNoStWait nnn
  | seImm | sneImm | seReg | sneReg => exact fun s b w => ⟨b, w, skipIf_withStWait s b w _⟩
  | skp | sknp => exact fun s b w => ⟨b, w, skipOnKey_withStWait s b w _ _ _⟩
  | drw x y n => exact drw_readsNoStWait x y n
  | ldRegs x => exact ldRegs_readsNoStWait x
  | ldVxK x => exact ldVxK_readsNoStWait x
  | ldB | stRegs => exact fun s b w => ⟨b, w, storeAtI_withStWait s b w _ _⟩
  | ldStVx x => exact fun s b w => ⟨s.getV x, w, rfl⟩
  | _ => exact fun s b w => ⟨b, w, rfl⟩

/-- Replacing the sound timer and KeyWait touches those two parts only. -/
theorem State.withStWait_frame (s : State) (b : Byte) (w : Bool) :
    ChangesOnly [.st, .keyWait] s (s.withStWait b w) :=
  (s.setSt_frame b).seq (State.setWait_frame _ w)

end Sys2Proof.Machine
end

section
/-! PROOFS. The statements of spec/10_state.md. -/

open Sys2Proof Sys2Proof.Machine

/-- Settles O48: a step stores at most one block from I on, and a block store keeps the canonical form. -/
theorem memoryCanonicalIsKept : Obligations.MemoryCanonicalIsKept := by
  unfold Obligations.MemoryCanonicalIsKept MemoryCanonical
  intro s t hm h
  obtain ⟨bytes, hbytes⟩ := step_mem s t h
  rw [hbytes]
  exact Memory.storeBytes_wf bytes s.mem s.i.toNat hm

/-- Settles O51: FX0A either rewinds to its own word or clears KeyWait; every other step keeps KeyWait, which
the invariant says was 0 before it. -/
theorem keyWaitStaysAtItsInstruction : Obligations.KeyWaitStaysAtItsInstruction := by
  unfold Obligations.KeyWaitStaysAtItsInstruction
  intro s t hk h
  rcases step_cases s with ⟨-, hs⟩ | ⟨-, hpc, hs⟩ | ⟨-, -, w, i, hw, hd, hs⟩ | ⟨-, -, w, hw, hd, hs⟩
  · cases hs.symm.trans h
    exact hk
  · have hno := hk.keyWait_eq_false (by simp [s.fetch_error hpc])
    cases hs.symm.trans h
    exact keyWaitAtWait_of_not_waiting hno
  · by_cases hi : ∃ x, i = .ldVxK x
    · obtain ⟨x, rfl⟩ := hi
      exact exec_ldVxK_keyWaitAtWait s t x (eq_encode_of_decodeWord_ldVxK w x hd ▸ hw) (hs.symm.trans h)
    · have hother : ∀ x, i ≠ .ldVxK x := not_exists.1 hi
      have hno := hk.keyWait_eq_false (fetch_ne_ldVxK hw (by simpa [hd] using hother))
      exact keyWaitAtWait_of_not_waiting ((exec_keyWait i s t hother (hs.symm.trans h)).trans hno)
  · have hno := hk.keyWait_eq_false (fetch_ne_ldVxK hw (by simp [hd]))
    cases hs.symm.trans h
    exact keyWaitAtWait_of_not_waiting hno

/-- Settles O42: what an instruction can do, its stored bytes taken into the frame by canonical memory. -/
theorem everyInstructionKeepsItsFrame : Obligations.EveryInstructionKeepsItsFrame := by
  unfold Obligations.EveryInstructionKeepsItsFrame
  intro i s hm
  exact (exec_cases i s).imp_left fun ⟨t, ht⟩ => ⟨t, ht.next, ht.changesOnly hm⟩

/-- Settles O47: the other run ends in the first one's next state with those two parts replaced. -/
theorem soundTimerAndKeyWaitAreNotRead : Obligations.SoundTimerAndKeyWaitAreNotRead := by
  unfold Obligations.SoundTimerAndKeyWaitAreNotRead
  intro i s t b w h
  obtain ⟨b', w', hother⟩ := exec_readsNoStWait i s b w
  rw [h] at hother
  exact ⟨t.withStWait b' w', hother, t.withStWait_frame b' w'⟩

end

section
/-! PROOFS. Memory, from the primitive write to a step: what a block store leaves at its own addresses, what FX55 stores,
and what a step does to the bytes below the program. -/

namespace Sys2Proof.Machine

/-! ### One byte and one block -/

/-- The info of a range fault is the start when that is itself outside memory (spec/60_exceptions.md R223). -/
theorem firstBad_of_lt (a : Nat) (h : 0xFFF < a) : firstBad a = BitVec.ofNat 16 a :=
  congrArg (BitVec.ofNat 16) (Nat.max_eq_left h)

/-- Byte k of a block stored inside memory reads back at offset k (spec/20_memory.md R60). -/
theorem Memory.read_storeBytes_add (m : Memory) (hm : Memory.wf m) (a : Nat) (bytes : List Byte)
    (ha : a + bytes.length ≤ 0x1000) (k : Nat) (hk : k < bytes.length) :
    Memory.read (Memory.storeBytes m a bytes) (a + k) = bytes[k] := by
  rw [Memory.read_storeBytes bytes m a hm ha, dif_pos (by omega)]
  simp only [Nat.add_sub_cancel_left]

/-! ### FX55 -/

/-- FX55 on a writable block (spec/42_index_memory.md R165). -/
theorem exec_stRegs_of_writable (s : State) (x : Reg) (hlow : 0x200 ≤ s.i.toNat) (htop : s.i.toNat + x.toNat ≤ 0xFFF) :
    exec (.stRegs x) s = .next (s.advance.setMem (Memory.storeBytes s.mem s.i.toNat (s.firstRegs x))) :=
  s.storeAtI_of_ok _ _ _ (writeBlock_ok _ _ _ (by rw [State.firstRegs_length]; omega) hlow)

/-- After the store of V[0] to V[x], the byte at I + k is V[k] (R165). -/
theorem State.read_storeBytes_firstRegs (s : State) (hm : MemoryCanonical s) (x : Reg)
    (htop : s.i.toNat + x.toNat ≤ 0xFFF) (k : Nat) (hk : k ≤ x.toNat) :
    Memory.read (Memory.storeBytes s.mem s.i.toNat (s.firstRegs x)) (s.i.toNat + k) = s.getV (BitVec.ofNat 4 k) := by
  have hlen := s.firstRegs_length x
  rw [Memory.read_storeBytes_add s.mem hm _ _ (by omega) k (by omega), State.firstRegs_getElem]

/-! ### The step -/

/-- A Running core whose pc leaves no room for a word takes the fetch fault (spec/20_memory.md R59). -/
theorem step_of_unfetchable (s : State) (hr : s.runState = .running) (h : 0xFFE < s.pc.toNat) :
    step s = .next (s.raise none ⟨.memoryFetch, firstBad s.pc.toNat⟩) := by
  simp only [step, hr, s.fetch_error h]

/-- A step leaves memory as it was, or completes an instruction. -/
theorem step_mem_eq_or_completes (s t : State) (h : step s = .next t) : t.mem = s.mem ∨ ∃ i, Completes i s t := by
  rcases step_cases s with ⟨-, hs⟩ | ⟨-, -, hs⟩ | ⟨-, -, w, i, -, -, hs⟩ | ⟨-, -, w, -, -, hs⟩
  · cases hs.symm.trans h
    exact .inl rfl
  · cases hs.symm.trans h
    exact .inl rfl
  · rcases exec_cases i s with ⟨u, hu⟩ | ⟨cause, info, -, hf⟩
    · cases hu.next.symm.trans (hs.symm.trans h)
      exact .inr ⟨i, hu⟩
    · cases hf.symm.trans (hs.symm.trans h)
      exact .inl rfl
  · cases hs.symm.trans h
    exact .inl rfl

/-- A completed instruction has stored at writable addresses only, so every byte below 0x200 reads as before (R56). -/
theorem Completes.read_low {i : Instr} {s t : State} (h : Completes i s t) (hm : MemoryCanonical s) (a : Nat)
    (ha : a < 0x200) : Memory.read t.mem a = Memory.read s.mem a := by
  rw [h.mem_eq]
  by_cases hnone : storedBytes s i = []
  · rw [hnone]
    rfl
  · obtain ⟨hlow, -⟩ := h.writable hnone
    exact Memory.read_storeBytes_below _ _ _ _ hm (by omega)

/-- No step changes a byte below 0x200, whatever it holds (R56). -/
theorem step_read_low (s t : State) (hm : MemoryCanonical s) (h : step s = .next t) (a : Nat) (ha : a < 0x200) :
    Memory.read t.mem a = Memory.read s.mem a := by
  rcases step_mem_eq_or_completes s t h with hmem | ⟨i, hi⟩
  · rw [hmem]
  · exact hi.read_low hm a ha

end Sys2Proof.Machine
end

section
/-! PROOFS. The statements of spec/20_memory.md. -/

open Sys2Proof Sys2Proof.Machine

/-- Settles O49: a step changes no byte below 0x200, so each still reads as initialize left it. -/
theorem lowMemoryIsNeverWritten : Obligations.LowMemoryIsNeverWritten := by
  unfold Obligations.LowMemoryIsNeverWritten LowMemoryIntact
  intro s t hm hlow h a ha
  exact (step_read_low s t hm h a ha).trans (hlow a ha)

/-- Settles O3: the two cases of the fetch's range check. -/
theorem fetchChecksBothBytes : Obligations.FetchChecksBothBytes := by
  unfold Obligations.FetchChecksBothBytes
  intro s hr
  refine ⟨fun h => s.fetch_ok (by omega), fun h => ?_⟩
  have hinfo : firstBad s.pc.toNat = if 0xFFF < s.pc.toNat then s.pc else 0x1000 := by
    rw [firstBad_word, ← ite_not]
    simp only [Nat.not_le]
  rw [step_of_unfetchable s hr (by omega), hinfo]
  rfl

/-- Settles O31: the three cases of the write's checks, then read after write. -/
theorem memoryWritePrimitive : Obligations.MemoryWritePrimitive := by
  unfold Obligations.MemoryWritePrimitive
  intro m a b hm
  refine ⟨fun hlow htop => ?_, fun htop => ?_, fun hlow => ?_⟩
  · exact ⟨Memory.store m a b, writeBlock_ok m a [b] (Nat.succ_le_succ htop) hlow, Memory.store_wf m hm a b,
      Memory.read_store m hm a htop b⟩
  · rw [writeBlock_range m a [b] (List.cons_ne_nil b []) (Nat.succ_lt_succ htop), firstBad_of_lt a htop]
  · exact writeBlock_low m a [b] (by rw [List.length_singleton]; omega) hlow

/-- Settles O32: the fetch reads the first two bytes of the block, which are V[0] and V[1]. -/
theorem fetchSeesStoredBytes : Obligations.FetchSeesStoredBytes := by
  unfold Obligations.FetchSeesStoredBytes
  intro s x hm hlow htop hx
  refine ⟨_, exec_stRegs_of_writable s x hlow htop, fun u hmem hpc => ?_⟩
  have hfirst : Memory.read (Memory.storeBytes s.mem s.i.toNat (s.firstRegs x)) s.i.toNat = s.getV 0 :=
    s.read_storeBytes_firstRegs hm x htop 0 (Nat.zero_le _)
  have hsecond := s.read_storeBytes_firstRegs hm x htop 1 hx
  rw [u.fetch_ok (by rw [hpc]; omega), hmem, hpc, State.setMem_mem, hfirst, hsecond]
  rfl

end

section
/-! PROOFS. The opcode map row by row: the row of an instruction, and that decoding and encoding by it undo each other
(spec/30_encoding.md R70 to R73). -/

namespace Sys2Proof

/-! ### The row of an instruction -/

theorem Instr.ctorIdx_lt (i : Instr) : i.ctorIdx < opcodeRows.length := by
  cases i <;> exact of_decide_eq_true rfl

/-- The instruction's row: the map stands in the order of the constructors (R74). -/
def Instr.row (i : Instr) : OpcodeRow := opcodeRows[i.ctorIdx]'i.ctorIdx_lt

theorem Instr.row_mem (i : Instr) : i.row ∈ opcodeRows := List.getElem_mem _

/-- A row of the map is the row of what it builds from any word. -/
theorem OpcodeRow.row_build (w : Word) : ∀ r ∈ opcodeRows, (r.build w).row = r := by
  intro r hr
  fin_cases hr <;> rfl

theorem OpcodeRow.selects_iff (r : OpcodeRow) (w : Word) : r.selects w = true ↔ w &&& r.mask = r.pattern := beq_iff_eq

/-! ### A well-formed instruction's word, decoded -/

open Laws.EncodesInRow in
/-- The law of each instruction, for all of them. -/
theorem encodesInRow : ∀ i, Statement i
  | .cls => cls | .ret => ret | .jp nnn => jp nnn | .call nnn => call nnn
  | .seImm x nn => seImm x nn | .sneImm x nn => sneImm x nn | .seReg x y => seReg x y
  | .ldImm x nn => ldImm x nn | .addImm x nn => addImm x nn | .ldReg x y => ldReg x y
  | .orReg x y => orReg x y | .andReg x y => andReg x y | .xorReg x y => xorReg x y
  | .addReg x y => addReg x y | .sub x y => sub x y | .shr x y => shr x y | .subn x y => subn x y
  | .shl x y => shl x y | .sneReg x y => sneReg x y | .ldI nnn => ldI nnn | .jpV0 nnn => jpV0 nnn
  | .rnd x nn => rnd x nn | .drw x y n => drw x y n | .skp x => skp x | .sknp x => sknp x
  | .ldVxDt x => ldVxDt x | .ldVxK x => ldVxK x | .ldDtVx x => ldDtVx x | .ldStVx x => ldStVx x
  | .addI x => addI x | .ldF x => ldF x | .ldB x => ldB x | .stRegs x => stRegs x | .ldRegs x => ldRegs x

/-- The mask and match the laws speak of are those of the instruction's row. -/
theorem Instr.maskMatch_eq (i : Instr) : Laws.EncodesInRow.maskMatch i = (i.row.mask, i.row.pattern) := by
  cases i <;> rfl

/-- An instruction's row selects its word (R73). -/
theorem Instr.row_selects_encode (i : Instr) (h : i.wellFormed = true) : i.row.selects (encode i) = true := by
  have hlaw := encodesInRow i h
  rw [i.maskMatch_eq] at hlaw
  exact (i.row.selects_iff _).2 hlaw

/-- The fields of an instruction's word are its operands, so its row builds it again (R70). -/
theorem Instr.row_build_encode (i : Instr) (h : i.wellFormed = true) : i.row.build (encode i) = i := by
  cases i with
  | cls | ret => rfl
  | jp nnn | call nnn | ldI nnn | jpV0 nnn => exact congrArg _ (fieldNNN_wordNNN _ nnn (by decide) h)
  | seImm x nn | sneImm x nn | ldImm x nn | addImm x nn | rnd x nn =>
    exact congrArg₂ _ (fieldX_wordXNN _ x nn (by decide)) (fieldNN_wordXNN _ x nn (by decide))
  | seReg x y | ldReg x y | orReg x y | andReg x y | xorReg x y | addReg x y | sub x y | shr x y | subn x y | shl x y
  | sneReg x y =>
    exact congrArg₂ _ (fieldX_wordXYN _ x y _ (by decide) (by decide)) (fieldY_wordXYN _ x y _ (by decide) (by decide))
  | drw x y n =>
    have hn : n ≤ 15 := of_decide_eq_true h
    change Instr.drw _ _ _ = _
    rw [encode, fieldX_wordXYN 0xD x y n (by decide) hn, fieldY_wordXYN 0xD x y n (by decide) hn,
      fieldN_wordXYN 0xD x y n (by decide) hn]
  | skp x | sknp x | ldVxDt x | ldVxK x | ldDtVx x | ldStVx x | addI x | ldF x | ldB x | stRegs x | ldRegs x =>
    exact congrArg _ (fieldX_wordXNN _ x _ (by decide))

/-- Decoding undoes encoding. -/
theorem decodeWord_encode (i : Instr) (h : i.wellFormed = true) : decodeWord (encode i) = .ok i := by
  rw [decodeWord_of_row i.row i.row_mem _ (i.row_selects_encode h), i.row_build_encode h]

/-! ### A word a row selects, encoded again -/

theorem fitsNNN_fieldNNN (w : Word) : fitsNNN (fieldNNN w) = true :=
  decide_eq_true (by rw [toNat_fieldNNN]; omega)

theorem fitsN_fieldN (w : Word) : fitsN (fieldN w) = true :=
  decide_eq_true (by rw [fieldN_eq]; omega)

/-- A masked top nibble, as a number. -/
theorem and_top_eq_iff (w p : Word) : w &&& 0xF000#16 = p ↔ w.toNat / 4096 * 4096 = p.toNat := by
  rw [← toNat_and_top, BitVec.toNat_inj]

/-- A masked top and lowest nibble, as a number. -/
theorem and_top_nibble_eq_iff (w p : Word) :
    w &&& 0xF00F#16 = p ↔ w.toNat / 4096 * 4096 + w.toNat % 16 = p.toNat := by
  rw [← toNat_and_top_nibble, BitVec.toNat_inj]

/-- A masked top nibble and low byte, as a number. -/
theorem and_top_byte_eq_iff (w p : Word) :
    w &&& 0xF0FF#16 = p ↔ w.toNat / 4096 * 4096 + w.toNat % 256 = p.toNat := by
  rw [← toNat_and_top_byte, BitVec.toNat_inj]

/-- A word with nothing masked out, as a number. -/
theorem and_all_eq_iff (w p : Word) : w &&& 0xFFFF#16 = p ↔ w.toNat = p.toNat := by
  rw [and_all, BitVec.toNat_inj]

section
variable (op : Nat) (hop : op < 16) (w : Word)
include hop

/-- The words of a pattern whose top nibble alone is literal. -/
theorem top_of_and (h : w &&& 0xF000#16 = BitVec.ofNat 16 (op * 4096)) : w.toNat / 4096 = op := by
  rw [and_top_eq_iff, BitVec.toNat_ofNat] at h
  omega

/-- The words of a pattern whose top and lowest nibble are literal. -/
theorem top_nibble_of_and (n : Nat) (hn : n ≤ 15) (h : w &&& 0xF00F#16 = BitVec.ofNat 16 (op * 4096 + n)) :
    w.toNat / 4096 = op ∧ w.toNat % 16 = n := by
  rw [and_top_nibble_eq_iff, BitVec.toNat_ofNat] at h
  omega

/-- The words of a pattern whose top nibble and low byte are literal. -/
theorem top_byte_of_and (nn : Byte) (h : w &&& 0xF0FF#16 = BitVec.ofNat 16 (op * 4096 + nn.toNat)) :
    w.toNat / 4096 = op ∧ w.toNat % 256 = nn.toNat := by
  have hnn := nn.isLt
  rw [and_top_byte_eq_iff, BitVec.toNat_ofNat] at h
  omega

/-- A word of a pattern oNNN is built from its fields. -/
theorem wordNNN_fieldNNN (h : w &&& 0xF000#16 = BitVec.ofNat 16 (op * 4096)) : wordNNN op (fieldNNN w) = w := by
  have htop := top_of_and op hop w h
  apply BitVec.eq_of_toNat_eq
  rw [toNat_wordNNN op _ hop (fitsNNN_fieldNNN w), toNat_fieldNNN]
  omega

/-- A word of a pattern oXNN is built from its fields. -/
theorem wordXNN_fields (h : w &&& 0xF000#16 = BitVec.ofNat 16 (op * 4096)) :
    wordXNN op (fieldX w) (fieldNN w) = w := by
  have htop := top_of_and op hop w h
  apply BitVec.eq_of_toNat_eq
  rw [toNat_wordXNN op _ _ hop, toNat_fieldX, toNat_fieldNN]
  omega

/-- A word of a pattern oXYN is built from its fields. -/
theorem wordXYN_fields (h : w &&& 0xF000#16 = BitVec.ofNat 16 (op * 4096)) :
    wordXYN op (fieldX w) (fieldY w) (fieldN w) = w := by
  have htop := top_of_and op hop w h
  apply BitVec.eq_of_toNat_eq
  rw [toNat_wordXYN op _ _ _ hop (of_decide_eq_true (fitsN_fieldN w)), toNat_fieldX, toNat_fieldY, fieldN_eq]
  omega

/-- A word of a pattern oXYn, n literal, is built from its fields and n. -/
theorem wordXYN_literal (n : Nat) (hn : n ≤ 15) (h : w &&& 0xF00F#16 = BitVec.ofNat 16 (op * 4096 + n)) :
    wordXYN op (fieldX w) (fieldY w) n = w := by
  obtain ⟨htop, hlow⟩ := top_nibble_of_and op hop w n hn h
  apply BitVec.eq_of_toNat_eq
  rw [toNat_wordXYN op _ _ n hop hn, toNat_fieldX, toNat_fieldY]
  omega

/-- A word of a pattern oXnn, nn literal, is built from its field X and nn. -/
theorem wordXNN_literal (nn : Byte) (h : w &&& 0xF0FF#16 = BitVec.ofNat 16 (op * 4096 + nn.toNat)) :
    wordXNN op (fieldX w) nn = w := by
  obtain ⟨htop, hlow⟩ := top_byte_of_and op hop w nn h
  apply BitVec.eq_of_toNat_eq
  rw [toNat_wordXNN op _ nn hop, toNat_fieldX]
  omega

end

/-- What an instruction's row builds from a word it selects encodes to that word (R72, R73). -/
theorem Instr.encode_row_build (i : Instr) (w : Word) (h : w &&& i.row.mask = i.row.pattern) :
    encode (i.row.build w) = w := by
  cases i with
  | cls | ret => exact ((and_all w).symm.trans h).symm
  | jp | call | ldI | jpV0 => exact wordNNN_fieldNNN _ (by decide) w h
  | seImm | sneImm | ldImm | addImm | rnd => exact wordXNN_fields _ (by decide) w h
  | seReg | ldReg | orReg | andReg | xorReg | addReg | sub | shr | subn | shl | sneReg =>
    exact wordXYN_literal _ (by decide) w _ (by decide) h
  | drw => exact wordXYN_fields _ (by decide) w h
  | skp | sknp | ldVxDt | ldVxK | ldDtVx | ldStVx | addI | ldF | ldB | stRegs | ldRegs =>
    exact wordXNN_literal _ (by decide) w _ h

/-- What a row builds is well formed: its operands are fields of the word. -/
theorem Instr.wellFormed_row_build (i : Instr) (w : Word) : (i.row.build w).wellFormed = true := by
  cases i with
  | jp | call | ldI | jpV0 => exact fitsNNN_fieldNNN w
  | drw => exact fitsN_fieldN w
  | _ => rfl

/-- A word decodes to i exactly when a row of the map selects it and builds i (R83). -/
theorem decodeWord_eq_ok_iff (w : Word) (i : Instr) :
    decodeWord w = .ok i ↔ ∃ r ∈ opcodeRows, w &&& r.mask = r.pattern ∧ r.build w = i := by
  constructor
  · intro h
    rcases decodeWord_cases w with ⟨r, hr, hsel, hd⟩ | ⟨-, hd⟩
    · exact ⟨r, hr, (r.selects_iff w).1 hsel, Except.ok.inj (hd.symm.trans h)⟩
    · simp [hd] at h
  · rintro ⟨r, hr, hsel, rfl⟩
    exact decodeWord_of_row r hr w ((r.selects_iff w).2 hsel)

/-- Encoding undoes decoding. -/
theorem wellFormed_and_encode_of_decodeWord (w : Word) (i : Instr) (h : decodeWord w = .ok i) :
    i.wellFormed = true ∧ encode i = w := by
  obtain ⟨r, hr, hsel, rfl⟩ := (decodeWord_eq_ok_iff w i).1 h
  have hrow := r.row_build w hr
  have hwf := (r.build w).wellFormed_row_build w
  have henc := (r.build w).encode_row_build w
  rw [hrow] at hwf henc
  exact ⟨hwf, henc hsel⟩

/-- Two rows of the map that select the same word are one row. -/
theorem row_unique (w : Word) (r q : OpcodeRow) (hr : r ∈ opcodeRows) (hq : q ∈ opcodeRows)
    (h : w &&& r.mask = r.pattern) (h' : w &&& q.mask = q.pattern) : r = q := by
  have hfr := find_row opcodeRows opcodeRows_disjoint r hr w ((r.selects_iff w).2 h)
  have hfq := find_row opcodeRows opcodeRows_disjoint q hq w ((q.selects_iff w).2 h')
  exact Option.some.inj (hfr.symm.trans hfq)

/-! ### The unknown words -/

/-- A word is unknown exactly when no row selects it (R79). -/
theorem decodeWord_eq_error_iff (w : Word) :
    (∃ e, decodeWord w = .error e) ↔ ¬ ∃ r ∈ opcodeRows, w &&& r.mask = r.pattern := by
  simp only [← OpcodeRow.selects_iff]
  rcases decodeWord_cases w with ⟨r, hr, hsel, hd⟩ | ⟨hno, hd⟩
  · simp only [hd, reduceCtorEq, exists_false, false_iff, not_not]
    exact ⟨r, hr, hsel⟩
  · refine iff_of_true ⟨_, hd⟩ ?_
    rintro ⟨r, hr, hsel⟩
    rw [hno r hr] at hsel
    cases hsel

/-- Families 0 to 7: the top nibble decides, but for the two words of family 0 and the lowest nibble of 5XY0. -/
theorem rowsLow_select_iff (w : Word) : (∃ r ∈ rowsLow, w &&& r.mask = r.pattern) ↔
    (w.toNat / 4096 = 0x0 ∧ (w.toNat = 0x00E0 ∨ w.toNat = 0x00EE)) ∨
    w.toNat / 4096 ∈ [0x1, 0x2, 0x3, 0x4, 0x6, 0x7] ∨ (w.toNat / 4096 = 0x5 ∧ w.toNat % 16 = 0) := by
  simp only [rowsLow, and_all_eq_iff, and_top_eq_iff, and_top_nibble_eq_iff, BitVec.toNat_ofNat, List.mem_cons,
    List.not_mem_nil, or_false, or_and_right, exists_or, exists_eq_left]
  omega

/-- Family 8: the lowest nibble is one of nine. -/
theorem rowsAlu_select_iff (w : Word) : (∃ r ∈ rowsAlu, w &&& r.mask = r.pattern) ↔
    w.toNat / 4096 = 0x8 ∧ w.toNat % 16 ∈ [0x0, 0x1, 0x2, 0x3, 0x4, 0x5, 0x6, 0x7, 0xE] := by
  simp only [rowsAlu, and_top_nibble_eq_iff, BitVec.toNat_ofNat, List.mem_cons,
    List.not_mem_nil, or_false, or_and_right, exists_or, exists_eq_left]
  omega

/-- Families 9 to E: the top nibble decides in A to D. -/
theorem rowsMid_select_iff (w : Word) : (∃ r ∈ rowsMid, w &&& r.mask = r.pattern) ↔
    (w.toNat / 4096 = 0x9 ∧ w.toNat % 16 = 0) ∨ w.toNat / 4096 ∈ [0xA, 0xB, 0xC, 0xD] ∨
    (w.toNat / 4096 = 0xE ∧ w.toNat % 256 ∈ [0x9E, 0xA1]) := by
  simp only [rowsMid, and_top_eq_iff, and_top_nibble_eq_iff, and_top_byte_eq_iff, BitVec.toNat_ofNat, List.mem_cons,
    List.not_mem_nil, or_false, or_and_right, exists_or, exists_eq_left]
  omega

/-- Family F: the low byte is one of nine. -/
theorem rowsF_select_iff (w : Word) : (∃ r ∈ rowsF, w &&& r.mask = r.pattern) ↔
    w.toNat / 4096 = 0xF ∧ w.toNat % 256 ∈ [0x07, 0x0A, 0x15, 0x18, 0x1E, 0x29, 0x33, 0x55, 0x65] := by
  simp only [rowsF, and_top_byte_eq_iff, BitVec.toNat_ofNat, List.mem_cons,
    List.not_mem_nil, or_false, or_and_right, exists_or, exists_eq_left]
  omega

/-- A row of the map is one of the four parts. -/
theorem opcodeRows_select_iff (w : Word) : (∃ r ∈ opcodeRows, w &&& r.mask = r.pattern) ↔
    (∃ r ∈ rowsLow, w &&& r.mask = r.pattern) ∨ (∃ r ∈ rowsAlu, w &&& r.mask = r.pattern) ∨
    (∃ r ∈ rowsMid, w &&& r.mask = r.pattern) ∨ ∃ r ∈ rowsF, w &&& r.mask = r.pattern := by
  simp only [opcodeRows, List.mem_append, or_and_right, exists_or, or_assoc]

end Sys2Proof
end

section
/-! PROOFS. The step as the run of a decoded word, and the bounds of pc and the stack over it. -/

namespace Sys2Proof.Machine

/-! ### Fetch, decode, execute -/

/-- Every instruction gives a next state. -/
theorem exec_completes (i : Instr) (s : State) : ∃ t, exec i s = .next t := by
  rcases exec_cases i s with ⟨t, ht⟩ | ⟨cause, info, -, hf⟩
  · exact ⟨t, ht.next⟩
  · exact ⟨_, hf⟩

/-- The instruction two bytes decode to is the one their word decodes to (spec/20_memory.md R52). -/
theorem decodeWord_of_decode_pair (hi lo : Byte) (i : Instr) (h : decode [hi, lo] = .ok (i, [])) :
    decodeWord (wordOfBytes hi lo) = .ok i := by
  rw [decode_pair] at h
  cases hd : decodeWord (wordOfBytes hi lo) with
  | ok j => simpa [hd] using h
  | error e => simp [hd] at h

/-- A Running state whose fetched word decodes: exec, and no event (R81). -/
theorem step_of_decoded (s : State) (i : Instr) (hr : s.runState = .running) (w : Word) (hw : s.fetch = .ok w)
    (hd : decodeWord w = .ok i) : step s = exec i s ∧ stepDiag s = none := by
  exact ⟨by rw [step_of_fetch s hr w hw, hd], by simp only [stepDiag, hr, hw, hd]⟩

/-- A Running state whose fetched word is unknown: the advance, and its event (R84, R243). -/
theorem step_of_unknown (s : State) (e : DecodeError) (hr : s.runState = .running) (w : Word) (hw : s.fetch = .ok w)
    (hd : decodeWord w = .error e) : step s = .next s.advance ∧ stepDiag s = some ⟨s.pc, w⟩ := by
  exact ⟨by rw [step_of_fetch s hr w hw, hd]; rfl, by simp only [stepDiag, hr, hw, hd]⟩

/-! ### The bounds of pc and the stack -/

/-- A change that leaves the stack as it was needs the bound of pc only. -/
theorem PcAndStackBounded.of_stack_eq {s t : State} (h : PcAndStackBounded s) (hstack : t.stack = s.stack)
    (hpc : t.pc.toNat ≤ 0x10FE) : PcAndStackBounded t := by
  obtain ⟨-, hlen, hentry⟩ := h
  exact ⟨hpc, hstack ▸ hlen, hstack ▸ hentry⟩

/-- The bounds with one more entry on the stack. -/
theorem pcAndStackBounded_of_concat {t : State} (l : List Word) (a : Word) (h : t.stack = l ++ [a]) :
    PcAndStackBounded t ↔ t.pc.toNat ≤ 0x10FE ∧ l.length + 1 ≤ 16 ∧ (∀ b ∈ l, 0x002 ≤ b.toNat ∧ b.toNat ≤ 0x1000) ∧
      0x002 ≤ a.toNat ∧ a.toNat ≤ 0x1000 := by
  simp only [PcAndStackBounded, h, List.length_append, List.length_singleton, List.forall_mem_append,
    List.forall_mem_singleton]

/-- The advance and the skip of an instruction that was fetched do not wrap (spec/30_encoding.md R82). -/
theorem toNat_pc_add (s : State) (hpc : s.pc.toNat ≤ 0xFFE) :
    (s.pc + 2).toNat = s.pc.toNat + 2 ∧ (s.pc + 4).toNat = s.pc.toNat + 4 := by
  constructor <;> simp only [BitVec.toNat_add, BitVec.ofNat_eq_ofNat, BitVec.toNat_ofNat] <;> omega

/-- The instruction ends within the bounds. -/
def EndsBounded (i : Instr) (s : State) : Prop := ∃ t, exec i s = .next t ∧ PcAndStackBounded t

section
variable {s : State} (hb : PcAndStackBounded s)
include hb

/-- A fault leaves pc and the stack. -/
theorem endsBounded_of_raise {i : Instr} (o : Option Word) (f : Trap) (h : exec i s = .next (s.raise o f)) :
    EndsBounded i s := ⟨_, h, hb⟩

/-- A return takes an entry of the stack to pc (spec/40_control_flow.md R101, R110). -/
theorem ret_endsBounded : EndsBounded .ret s := by
  rcases List.eq_nil_or_concat s.stack with h | ⟨l, a, h⟩
  · exact endsBounded_of_raise hb _ _ (exec_ret_of_empty s h)
  · rw [List.concat_eq_append] at h
    obtain ⟨-, hlen, hl, -, ha⟩ := (pcAndStackBounded_of_concat l a h).1 hb
    exact ⟨_, exec_ret_of_concat s l a h, le_trans ha (by decide), Nat.le_of_succ_le hlen, hl⟩

variable (hpc : s.pc.toNat ≤ 0xFFE)
include hpc

/-- A call pushes the address after itself (R103, R110). -/
theorem call_endsBounded (nnn : Word) (hn : nnn.toNat ≤ 0xFFF) : EndsBounded (.call nnn) s := by
  by_cases h : s.stack.length < 16
  · obtain ⟨-, -, hentry⟩ := hb
    obtain ⟨hnext, -⟩ := toNat_pc_add s hpc
    refine ⟨_, exec_call_of_lt s nnn h, (pcAndStackBounded_of_concat s.stack (s.pc + 2) rfl).2 ?_⟩
    exact ⟨le_trans hn (by decide), h, hentry, by omega, by omega⟩
  · exact endsBounded_of_raise hb _ _ (exec_call_of_full s nnn (by omega))

/-- An instruction that leaves the stack and advances ends within the bounds. -/
theorem endsBounded_of_advance {i : Instr} (t : State) (h : exec i s = .next t) (hstack : t.stack = s.stack)
    (ht : t.pc = s.pc + 2) : EndsBounded i s := by
  obtain ⟨hnext, -⟩ := toNat_pc_add s hpc
  exact ⟨t, h, hb.of_stack_eq hstack (by rw [ht]; omega)⟩

/-- A skip ends within the bounds (R100). -/
theorem endsBounded_of_skip {i : Instr} (c : Bool)
    (h : exec i s = .next (s.setPc (if c then s.pc + 4 else s.pc + 2))) : EndsBounded i s := by
  obtain ⟨-, hskip⟩ := toNat_pc_add s hpc
  cases c with
  | false => exact endsBounded_of_advance hb hpc _ h rfl rfl
  | true =>
    have hle : (s.pc + 4).toNat ≤ 0x10FE := by omega
    exact ⟨_, h, hb.of_stack_eq rfl hle⟩

theorem skipOnKey_endsBounded {i : Instr} (x : Reg) (want : Bool) (h : exec i s = s.skipOnKey i x want) :
    EndsBounded i s := by
  rcases s.skipOnKey_cases i x want with ⟨-, hk⟩ | ⟨-, hk⟩
  · exact endsBounded_of_skip hb hpc _ (h.trans hk)
  · exact endsBounded_of_raise hb _ _ (h.trans hk)

theorem storeAtI_endsBounded {i : Instr} (bytes : List Byte) (h : exec i s = s.storeAtI i bytes) :
    EndsBounded i s := by
  cases hw : writeBlock s.mem s.i.toNat bytes with
  | ok m => exact endsBounded_of_advance hb hpc _ (h.trans (s.storeAtI_of_ok i bytes m hw)) rfl rfl
  | error f => exact endsBounded_of_raise hb _ f (h.trans (s.storeAtI_of_error i bytes f hw))

theorem drw_endsBounded (x y : Reg) (n : Nat) : EndsBounded (.drw x y n) s := by
  cases hr : readBlock .memoryRead s.mem s.i.toNat (drawnRows (s.spriteY y) n) with
  | ok bytes => exact endsBounded_of_advance hb hpc _ (exec_drw_of_ok s x y n bytes hr) rfl rfl
  | error f => exact endsBounded_of_raise hb _ f (exec_drw_of_error s x y n f hr)

theorem ldRegs_endsBounded (x : Reg) : EndsBounded (.ldRegs x) s := by
  cases hr : readBlock .memoryRead s.mem s.i.toNat (x.toNat + 1) with
  | ok bytes => exact endsBounded_of_advance hb hpc _ (exec_ldRegs_of_ok s x bytes hr) rfl rfl
  | error f => exact endsBounded_of_raise hb _ f (exec_ldRegs_of_error s x f hr)

/-- FX0A stays where it is or advances (spec/44_keypad_timer_ops.md R204). -/
theorem ldVxK_endsBounded (x : Reg) : EndsBounded (.ldVxK x) s := by
  by_cases h : s.pressed = []
  · exact ⟨_, exec_ldVxK_of_none s x h, hb⟩
  · obtain ⟨k, -, hk⟩ := exec_ldVxK_of_pressed s x h
    exact endsBounded_of_advance hb hpc _ hk rfl rfl

/-- Every fetched instruction ends within the bounds: BNNN sets the largest pc, 0xFF + 0xFFF (R82, R108). -/
theorem exec_endsBounded (i : Instr) (hi : i.wellFormed = true) : EndsBounded i s := by
  cases i with
  | ret => exact ret_endsBounded hb
  | jp nnn =>
    have hn : nnn.toNat ≤ 0xFFF := of_decide_eq_true hi
    exact ⟨_, rfl, hb.of_stack_eq rfl (le_trans hn (by decide))⟩
  | call nnn => exact call_endsBounded hb hpc nnn (of_decide_eq_true hi)
  | jpV0 nnn =>
    have hn : nnn.toNat ≤ 0xFFF := of_decide_eq_true hi
    have hv := (s.getV 0).isLt
    refine ⟨_, rfl, hb.of_stack_eq rfl ?_⟩
    simp only [State.setPc_pc, BitVec.toNat_add, BitVec.toNat_setWidth]
    omega
  | seImm | sneImm | seReg | sneReg => exact endsBounded_of_skip hb hpc _ (s.skipIf_eq _)
  | skp | sknp => exact skipOnKey_endsBounded hb hpc _ _ rfl
  | drw x y n => exact drw_endsBounded hb hpc x y n
  | ldVxK x => exact ldVxK_endsBounded hb hpc x
  | ldB | stRegs => exact storeAtI_endsBounded hb hpc _ rfl
  | ldRegs x => exact ldRegs_endsBounded hb hpc x
  | _ => exact endsBounded_of_advance hb hpc _ rfl rfl rfl

end

end Sys2Proof.Machine
end

section
/-! PROOFS. The statements of spec/30_encoding.md. -/

open Sys2Proof Sys2Proof.Machine

/-- Settles O6: the instruction's own row selects its word and builds it again. -/
theorem decodeOfEncodeIsIdentity : Obligations.DecodeOfEncodeIsIdentity := by
  unfold Obligations.DecodeOfEncodeIsIdentity
  intro i rest h
  simp only [encodeBytes, List.cons_append, List.nil_append, decode_pair, wordOfBytes_bytes, decodeWord_encode i h]

/-- Settles O50: a step leaves pc and the stack, advances below 0x1001, or runs a well-formed instruction. -/
theorem pcAndStackStayBounded : Obligations.PcAndStackStayBounded := by
  unfold Obligations.PcAndStackStayBounded
  intro s t hb h
  rcases step_cases s with ⟨-, hs⟩ | ⟨-, -, hs⟩ | ⟨-, hpc, w, i, -, hd, hs⟩ | ⟨-, hpc, w, -, -, hs⟩
  · cases hs.symm.trans h
    exact hb
  · cases hs.symm.trans h
    exact hb
  · obtain ⟨u, hu, hbu⟩ := exec_endsBounded hb hpc i (wellFormed_and_encode_of_decodeWord w i hd).1
    cases hu.symm.trans (hs.symm.trans h)
    exact hbu
  · cases hs.symm.trans h
    obtain ⟨hnext, -⟩ := toNat_pc_add s hpc
    have hle : (s.pc + 2).toNat ≤ 0x10FE := by omega
    exact hb.of_stack_eq rfl hle

/-- Settles O7: the row that selects the word builds an instruction that encodes to it. -/
theorem encodeOfDecodeIsIdentity : Obligations.EncodeOfDecodeIsIdentity := by
  unfold Obligations.EncodeOfDecodeIsIdentity
  exact wellFormed_and_encode_of_decodeWord

/-- Settles O8: the rows are pairwise different on a bit both fix, so a word finds its one row. -/
theorem opcodeMapSelectsAtMostOneRow : Obligations.OpcodeMapSelectsAtMostOneRow := by
  unfold Obligations.OpcodeMapSelectsAtMostOneRow
  exact fun w => ⟨decodeWord_eq_ok_iff w,
    fun r hr q hq h h' => congrArg OpcodeRow.mnemonic (row_unique w r q hr hq h h')⟩

/-- Settles O9: the words no row selects, one top nibble at a time; family 8 lists its other lowest nibbles. -/
theorem strictDecodeOfLiteralNibbles : Obligations.StrictDecodeOfLiteralNibbles := by
  unfold Obligations.StrictDecodeOfLiteralNibbles
  intro w
  rw [decodeWord_eq_error_iff, opcodeRows_select_iff, rowsLow_select_iff, rowsAlu_select_iff, rowsMid_select_iff,
    rowsF_select_iff]
  have htop : w.toNat / 4096 < 16 := by omega
  generalize w.toNat / 4096 = top at htop
  obtain rfl | h8 := eq_or_ne top 8
  · simp
    omega
  · interval_cases top <;> simp at h8 ⊢

/-- Settles O5: the four cases of a step, and every instruction completes or takes its fault. -/
theorem everyStepCompletes : Obligations.EveryStepCompletes := by
  unfold Obligations.EveryStepCompletes
  intro s
  rcases step_cases s with ⟨-, hs⟩ | ⟨-, -, hs⟩ | ⟨-, -, w, i, -, -, hs⟩ | ⟨-, -, w, -, -, hs⟩
  · exact ⟨_, hs⟩
  · exact ⟨_, hs⟩
  · rw [hs]
    exact exec_completes i s
  · exact ⟨_, hs⟩

/-- Settles O1: the fetch reads those two bytes. -/
theorem stepRunsDecodedInstruction : Obligations.StepRunsDecodedInstruction := by
  unfold Obligations.StepRunsDecodedInstruction
  intro s i hr hpc h
  have hd := decodeWord_of_decode_pair _ _ i h
  exact ⟨(wellFormed_and_encode_of_decodeWord _ i hd).1, step_of_decoded s i hr _ (s.fetch_ok hpc) hd⟩

/-- Settles O2: the fetch reads the word at pc. -/
theorem unknownWordIsNoOp : Obligations.UnknownWordIsNoOp := by
  unfold Obligations.UnknownWordIsNoOp
  intro s e hr hpc h
  exact step_of_unknown s e hr _ (s.fetch_ok hpc) h

/-- Settles O10: each instruction's encoding is the word written out; 0x0123 is run through the map. -/
theorem sampleWordsDecode : Obligations.SampleWordsDecode := by
  unfold Obligations.SampleWordsDecode
  exact ⟨decodeWord_encode .cls rfl, decodeWord_encode .ret rfl, decodeWord_encode (.call 0xABC) rfl,
    decodeWord_encode (.seImm 3 0x10) rfl, decodeWord_encode (.sneReg 1 2) rfl, decodeWord_encode (.shr 3 7) rfl,
    decodeWord_encode (.rnd 0 0x0F) rfl, decodeWord_encode (.ldI 0x123) rfl, decodeWord_encode (.drw 3 4 5) rfl,
    decodeWord_encode (.skp 1) rfl, decodeWord_encode (.ldVxK 2) rfl, decodeWord_encode (.stRegs 2) rfl, by decide⟩

end

section
/-! PROOFS. Control flow: the whole effect of a skip, of a change of pc and the stack, and of a call and its return. -/

namespace Sys2Proof.Machine

/-- The state a return or a call leaves differs from the one before it in pc and the stack only. -/
theorem State.advance_setStack_setPc_frame (s : State) (l : List Word) (a : Word) :
    ChangesOnly [.pc, .stack] s ((s.advance.setStack l).setPc a) :=
  ((s.advance_frame.seq (State.setStack_frame _ l)).seq (State.setPc_frame _ a)).mono _ _ _ _ (by simp)

/-- The return behind a call takes back the entry the call pushed: only the advance past the call is left. -/
theorem exec_ret_of_called (s : State) (nnn : Word) :
    exec .ret ((s.advance.setStack (s.stack ++ [s.pc + 2])).setPc nnn) = .next s.advance :=
  exec_ret_of_concat _ s.stack (s.pc + 2) rfl

/-- A skip on two equal bytes compares them as numbers and changes pc only (spec/40_control_flow.md R100). -/
theorem exec_of_skipIf_beq (i : Instr) (s : State) (a b : Byte) (h : exec i s = s.skipIf (a == b)) :
    ∃ t, exec i s = .next t ∧ t.pc = (if a.toNat = b.toNat then s.pc + 4 else s.pc + 2) ∧ ChangesOnly [.pc] s t := by
  refine ⟨_, h.trans (s.skipIf_eq _), ?_, s.setPc_frame _⟩
  simp only [State.setPc_pc, beq_iff_eq, BitVec.toNat_inj]

/-- A skip on two different bytes compares them as numbers and changes pc only (R100). -/
theorem exec_of_skipIf_bne (i : Instr) (s : State) (a b : Byte) (h : exec i s = s.skipIf (a != b)) :
    ∃ t, exec i s = .next t ∧ t.pc = (if a.toNat = b.toNat then s.pc + 2 else s.pc + 4) ∧ ChangesOnly [.pc] s t := by
  refine ⟨_, h.trans (s.skipIf_eq _), ?_, s.setPc_frame _⟩
  simp only [State.setPc_pc, bne_iff_ne, ne_eq, ite_not, BitVec.toNat_inj]

/-- The sum of a byte and a 12-bit offset fits in a word (R108). -/
theorem toNat_setWidth_add (b : Byte) (nnn : Word) (h : nnn.toNat ≤ 0xFFF) :
    (b.setWidth 16 + nnn).toNat = b.toNat + nnn.toNat := by
  have hb := b.isLt
  simp only [BitVec.toNat_add, BitVec.toNat_setWidth]
  omega

end Sys2Proof.Machine
end

section
/-! PROOFS. The statements of spec/40_control_flow.md. -/

open Sys2Proof Sys2Proof.Machine

/-- Settles O11: the two cases of the pop. -/
theorem returnPopsIntoPc : Obligations.ReturnPopsIntoPc := by
  unfold Obligations.ReturnPopsIntoPc
  intro s
  constructor
  · intro l a h
    exact ⟨_, exec_ret_of_concat s l a h, rfl, rfl, s.advance_setStack_setPc_frame l a⟩
  · intro h
    exact exec_ret_of_empty s h

/-- Settles O13: the two cases of the push; the info of the overflow is the length of the full stack. -/
theorem callPushesReturnAddress : Obligations.CallPushesReturnAddress := by
  unfold Obligations.CallPushesReturnAddress
  intro s nnn
  constructor
  · intro h
    exact ⟨_, exec_call_of_lt s nnn h, rfl, rfl, s.advance_setStack_setPc_frame _ nnn⟩
  · intro h
    have hfull := exec_call_of_full s nnn h.ge
    rw [h] at hfull
    exact hfull

/-- Settles O14: the return takes back what the call pushed. -/
theorem callThenReturnComesBack : Obligations.CallThenReturnComesBack := by
  unfold Obligations.CallThenReturnComesBack
  intro s nnn h
  exact ⟨_, _, exec_call_of_lt s nnn h, exec_ret_of_called s nnn, rfl, s.advance_frame⟩

/-- Settles O15: V[0] and a 12-bit NNN have a sum below 2 ^ 16. -/
theorem jumpWithOffsetIsExact : Obligations.JumpWithOffsetIsExact := by
  unfold Obligations.JumpWithOffsetIsExact
  intro s nnn h
  have hn : nnn.toNat ≤ 0xFFF := of_decide_eq_true h
  exact ⟨_, rfl, toNat_setWidth_add (s.getV 0) nnn hn, s.setPc_frame _⟩

/-- Settles O16: one skip on equality and one on difference, of a register and the immediate. -/
theorem immediateSkipsCompare : Obligations.ImmediateSkipsCompare := by
  unfold Obligations.ImmediateSkipsCompare
  intro s x nn
  exact ⟨exec_of_skipIf_beq (.seImm x nn) s _ _ rfl, exec_of_skipIf_bne (.sneImm x nn) s _ _ rfl⟩

/-- Settles O17: one skip on equality and one on difference, of two registers. -/
theorem registerSkipsCompare : Obligations.RegisterSkipsCompare := by
  unfold Obligations.RegisterSkipsCompare
  intro s x y
  exact ⟨exec_of_skipIf_beq (.seReg x y) s _ _ rfl, exec_of_skipIf_bne (.sneReg x y) s _ _ rfl⟩

/-- Settles O12: the jump replaces the advanced pc. -/
theorem jumpWritesTarget : Obligations.JumpWritesTarget := by
  unfold Obligations.JumpWritesTarget
  intro s nnn
  exact ⟨_, rfl, rfl, s.setPc_frame nnn⟩

end

section
/-! PROOFS. The register file and ALU: what a write of one register leaves, what a flag write before it leaves, and each
flag writer in numbers. -/

namespace Sys2Proof.Machine

/-! ### One register written -/

/-- An instruction that only writes V[x] writes it, advances, and keeps the rest (spec/41_register_alu.md R130). -/
theorem exec_of_setV (i : Instr) (s : State) (x : Reg) (b : Byte) (h : exec i s = .next (s.advance.setV x b)) :
    ∃ t, exec i s = .next t ∧ t.getV x = b ∧ t.pc = s.pc + 2 ∧ ChangesOnly [.pc, .v x] s t :=
  ⟨_, h, by simp, rfl, s.advance_frame.seq (State.setV_frame _ x b)⟩

/-- An operation that works on each bit by itself gives each bit of V[x] from the old bits of V[x] and V[y]. -/
theorem exec_of_combine_bits (i : Instr) (s : State) (f : Byte → Byte → Byte) (g : Bool → Bool → Bool) (x y : Reg)
    (h : exec i s = s.combine f x y)
    (hbit : ∀ a b k, (f a b).getLsbD k = g (a.getLsbD k) (b.getLsbD k)) :
    ∃ t, exec i s = .next t ∧ t.pc = s.pc + 2 ∧ ChangesOnly [.pc, .v x] s t ∧
      ∀ k, k < 8 → (t.getV x).getLsbD k = g ((s.getV x).getLsbD k) ((s.getV y).getLsbD k) := by
  obtain ⟨t, hnext, hx, hpc, hframe⟩ := exec_of_setV i s x _ h
  exact ⟨t, hnext, hpc, hframe, fun k _ => by rw [hx, hbit]⟩

/-! ### A flag and a register written -/

/-- The number V[r] holds once VF holds the flag. -/
def State.afterFlag (s : State) (flag : Nat) (r : Reg) : Nat := if r = Reg.flag then flag else (s.getV r).toNat

theorem State.toNat_getV_setFlag (s : State) (flag : Byte) (r : Reg) :
    ((s.setFlag flag).getV r).toNat = s.afterFlag flag.toNat r := by
  rw [State.getV_setV, apply_ite BitVec.toNat, State.afterFlag]

@[simp] theorem State.afterFlag_flag (s : State) (flag : Nat) : s.afterFlag flag Reg.flag = flag := if_pos rfl

theorem State.afterFlag_of_ne (s : State) (flag : Nat) {r : Reg} (h : r ≠ Reg.flag) :
    s.afterFlag flag r = (s.getV r).toNat := if_neg h

/-- The instruction leaves the result in V[x] and the flag in VF, which the result overwrites when x is F; pc advances
and everything else is unchanged. -/
def WritesFlagAndResult (i : Instr) (s : State) (x : Reg) (flag result : Nat) : Prop :=
  ∃ t, exec i s = .next t ∧ (t.getV x).toNat = result ∧ (x ≠ Reg.flag → (t.getV Reg.flag).toNat = flag) ∧
    t.pc = s.pc + 2 ∧ ChangesOnly [.pc, .v x, .v Reg.flag] s t

/-- A write of VF and then of V[x] (R130). -/
theorem writesFlagAndResult_of_setV (i : Instr) (s : State) (x : Reg) (flag b : Byte)
    (h : exec i s = .next ((s.advance.setFlag flag).setV x b)) :
    WritesFlagAndResult i s x flag.toNat b.toNat := by
  refine ⟨_, h, by simp, fun hx => by simp [hx.symm], rfl, ?_⟩
  exact ((s.advance_frame.seq (State.setV_frame _ Reg.flag flag)).seq (State.setV_frame _ x b)).mono _ _ _ _ (by simp)

/-- A write of VF and then of V[x] from the registers read again: f works on the numbers as g does (R138 to R141). -/
theorem writesFlagAndResult_of_flagThen (i : Instr) (s : State) (flag : Byte) (f : Byte → Byte → Byte)
    (g : Nat → Nat → Nat) (x y : Reg) (h : exec i s = s.flagThen flag f x y)
    (hg : ∀ a b, (f a b).toNat = g a.toNat b.toNat) :
    WritesFlagAndResult i s x flag.toNat (g (s.afterFlag flag.toNat x) (s.afterFlag flag.toNat y)) := by
  have hwrite := writesFlagAndResult_of_setV i s x flag _ h
  rw [hg, State.toNat_getV_setFlag, State.toNat_getV_setFlag] at hwrite
  exact hwrite

section
variable {i : Instr} {s : State} {x : Reg} {flag result : Nat}

/-- Where x is F, VF ends with the result (R143). -/
theorem WritesFlagAndResult.final_of_flag (h : WritesFlagAndResult i s Reg.flag flag result) {n : Nat}
    (hn : result = n) : ∃ t, exec i s = .next t ∧ (t.getV Reg.flag).toNat = n := by
  obtain ⟨t, hnext, hx, -⟩ := h
  exact ⟨t, hnext, hx.trans hn⟩

/-- Where x is not F, VF ends with the flag and V[x] with the result (R143). -/
theorem WritesFlagAndResult.final_of_ne (h : WritesFlagAndResult i s x flag result) (hne : x ≠ Reg.flag) {n : Nat}
    (hn : result = n) : ∃ t, exec i s = .next t ∧ (t.getV Reg.flag).toNat = flag ∧ (t.getV x).toNat = n := by
  obtain ⟨t, hnext, hx, hflag, -⟩ := h
  exact ⟨t, hnext, hflag hne, hx.trans hn⟩

/-- Where x is not F, VF ends with the flag (R143). -/
theorem WritesFlagAndResult.flag_of_ne (h : WritesFlagAndResult i s x flag result) (hne : x ≠ Reg.flag) :
    ∃ t, exec i s = .next t ∧ (t.getV Reg.flag).toNat = flag := by
  obtain ⟨t, hnext, hflag, -⟩ := h.final_of_ne hne rfl
  exact ⟨t, hnext, hflag⟩

end

/-! ### The flag writers in numbers -/

/-- The no-borrow flag as a number (R138, R140). -/
abbrev geFlag (a b : Nat) : Nat := if a ≥ b then 1 else 0

theorem toNat_noBorrow_eq_geFlag (a b : Byte) : (noBorrow a b).toNat = geFlag a.toNat b.toNat := toNat_noBorrow a b

/-- The difference of two bytes mod 256. -/
theorem toNat_byte_sub (a b : Byte) : (a - b).toNat = (a.toNat + 256 - b.toNat) % 256 := by
  have hb := b.isLt
  rw [BitVec.toNat_sub]
  omega

theorem toNat_byte_shiftRight_one (a : Byte) : (a >>> 1).toNat = a.toNat / 2 := by
  rw [BitVec.toNat_ushiftRight, Nat.shiftRight_eq_div_pow, pow_one]

theorem toNat_byte_shiftLeft_one (a : Byte) : (a <<< 1).toNat = 2 * a.toNat % 256 := by
  rw [BitVec.toNat_shiftLeft, Nat.shiftLeft_eq, pow_one, mul_comm]

variable (s : State) (x y : Reg)

/-- 8XY4 (R137). -/
theorem addReg_writes : WritesFlagAndResult (.addReg x y) s x
    (if (s.getV x).toNat + (s.getV y).toNat > 255 then 1 else 0) (((s.getV x).toNat + (s.getV y).toNat) % 256) := by
  have h := writesFlagAndResult_of_setV (.addReg x y) s x _ _ rfl
  rw [toNat_carry, BitVec.toNat_add] at h
  exact h

/-- 8XY5 (R138). -/
theorem sub_writes : WritesFlagAndResult (.sub x y) s x (geFlag (s.getV x).toNat (s.getV y).toNat)
    ((s.afterFlag (geFlag (s.getV x).toNat (s.getV y).toNat) x + 256 -
      s.afterFlag (geFlag (s.getV x).toNat (s.getV y).toNat) y) % 256) := by
  rw [← toNat_noBorrow_eq_geFlag]
  exact writesFlagAndResult_of_flagThen (.sub x y) s _ _ (fun a b => (a + 256 - b) % 256) x y rfl toNat_byte_sub

/-- 8XY7 (R140). -/
theorem subn_writes : WritesFlagAndResult (.subn x y) s x (geFlag (s.getV y).toNat (s.getV x).toNat)
    ((s.afterFlag (geFlag (s.getV y).toNat (s.getV x).toNat) y + 256 -
      s.afterFlag (geFlag (s.getV y).toNat (s.getV x).toNat) x) % 256) := by
  rw [← toNat_noBorrow_eq_geFlag]
  exact writesFlagAndResult_of_flagThen (.subn x y) s _ _ (fun a b => (b + 256 - a) % 256) x y rfl
    fun a b => toNat_byte_sub b a

/-- 8XY6 (R139). -/
theorem shr_writes : WritesFlagAndResult (.shr x y) s x ((s.getV x).toNat % 2)
    (s.afterFlag ((s.getV x).toNat % 2) x / 2) := by
  rw [← toNat_shiftOutRight]
  exact writesFlagAndResult_of_flagThen (.shr x y) s _ _ (fun a _ => a / 2) x y rfl
    fun a _ => toNat_byte_shiftRight_one a

/-- 8XYE (R141). -/
theorem shl_writes : WritesFlagAndResult (.shl x y) s x ((s.getV x).toNat / 128)
    (2 * s.afterFlag ((s.getV x).toNat / 128) x % 256) := by
  rw [← toNat_shiftOutLeft]
  exact writesFlagAndResult_of_flagThen (.shl x y) s _ _ (fun a _ => 2 * a % 256) x y rfl
    fun a _ => toNat_byte_shiftLeft_one a

end Sys2Proof.Machine
end

section
/-! PROOFS. The statements of spec/41_register_alu.md about load, arithmetic and logic. -/

open Sys2Proof Sys2Proof.Machine

/-- Settles O18: each writes one register. -/
theorem loadAddAndCopy : Obligations.LoadAddAndCopy := by
  unfold Obligations.LoadAddAndCopy
  intro s x y nn
  refine ⟨exec_of_setV (.ldImm x nn) s x nn rfl, ?_, exec_of_setV (.ldReg x y) s x (s.getV y) rfl⟩
  obtain ⟨t, hnext, hx, hpc, hframe⟩ := exec_of_setV (.addImm x nn) s x (s.getV x + nn) rfl
  exact ⟨t, hnext, hx ▸ BitVec.toNat_add _ _, hpc, hframe⟩

/-- Settles O19: OR, AND and XOR of two bytes work on each bit by itself. -/
theorem bitwiseOperations : Obligations.BitwiseOperations := by
  unfold Obligations.BitwiseOperations
  intro s x y
  exact ⟨exec_of_combine_bits (.orReg x y) s _ or x y rfl fun _ _ _ => BitVec.getLsbD_or,
    exec_of_combine_bits (.andReg x y) s _ and x y rfl fun _ _ _ => BitVec.getLsbD_and,
    exec_of_combine_bits (.xorReg x y) s _ bne x y rfl fun _ _ _ => BitVec.getLsbD_xor⟩

/-- Settles O20: the sum is read before the carry is written. -/
theorem addWritesSumAndCarry : Obligations.AddWritesSumAndCarry := by
  unfold Obligations.AddWritesSumAndCarry
  exact addReg_writes

/-- Settles O21: the flag is written, then both operands are read again. -/
theorem subtractWritesFlagThenDifference : Obligations.SubtractWritesFlagThenDifference := by
  unfold Obligations.SubtractWritesFlagThenDifference
  exact sub_writes

/-- Settles O22: the flag is written, then both operands are read again. -/
theorem reverseSubtractWritesFlagThenDifference : Obligations.ReverseSubtractWritesFlagThenDifference := by
  unfold Obligations.ReverseSubtractWritesFlagThenDifference
  exact subn_writes

/-- Settles O23: the bit is written, then V[X] is read again; V[Y] is not in the result. -/
theorem shiftsWriteBitOutThenShift : Obligations.ShiftsWriteBitOutThenShift := by
  unfold Obligations.ShiftsWriteBitOutThenShift
  intro s x y
  obtain ⟨t, hnext, hx, hflag, hframe⟩ := shr_writes s x y
  obtain ⟨u, hnext', hx', hflag', hframe'⟩ := shl_writes s x y
  exact ⟨⟨t, hnext, ⟨hx, hflag⟩, hframe⟩, u, hnext', ⟨hx', hflag'⟩, hframe'⟩

/-- Settles O24: with X = F the final VF is the result, else it is the flag; an operand that names VF reads the flag.
One `refine` for each instruction of the table, its three cells in the table's order. -/
theorem flagAliasTable : Obligations.FlagAliasTable := by
  unfold Obligations.FlagAliasTable
  intro s x y hx hy
  have hf := (s.getV Reg.flag).isLt
  refine ⟨(addReg_writes s _ y).final_of_flag rfl, (addReg_writes s x _).flag_of_ne hx,
    (addReg_writes s _ _).final_of_flag (by omega), ?_⟩
  refine ⟨(sub_writes s _ y).final_of_flag (by simp [s.afterFlag_of_ne _ hy]),
    (sub_writes s x _).final_of_ne hx (by simp [s.afterFlag_of_ne _ hx]),
    (sub_writes s _ _).final_of_flag (by simp), ?_⟩
  refine ⟨(shr_writes s _ y).final_of_flag (by simp), (shr_writes s x _).flag_of_ne hx,
    (shr_writes s _ _).final_of_flag (by simp), ?_⟩
  refine ⟨(subn_writes s _ y).final_of_flag (by simp [s.afterFlag_of_ne _ hy]),
    (subn_writes s x _).final_of_ne hx (by simp [s.afterFlag_of_ne _ hx]),
    (subn_writes s _ _).final_of_flag (by simp), ?_⟩
  exact ⟨(shl_writes s _ y).final_of_flag (by rw [State.afterFlag_flag]; omega), (shl_writes s x _).flag_of_ne hx,
    (shl_writes s _ _).final_of_flag (by rw [State.afterFlag_flag]; omega)⟩

end

section
/-! PROOFS. The index register and the blocks of memory from I on: the frame of each effect, the faults of a block store
and of a block load, and the bytes a load brings in. -/

namespace Sys2Proof.Machine

/-! ### The index register -/

/-- A write of I after the advance touches pc and I only (spec/42_index_memory.md R161 to R163). -/
theorem State.advance_setI_frame (s : State) (a : Word) : ChangesOnly [.pc, .i] s (s.advance.setI a) :=
  s.advance_frame.seq (State.setI_frame _ a)

/-- The sum of a word and a byte wraps as a word (R162). -/
theorem toNat_add_setWidth (a : Word) (b : Byte) : (a + b.setWidth 16).toNat = (a.toNat + b.toNat) % 0x10000 := by
  rw [BitVec.toNat_add, BitVec.toNat_setWidth_of_le (by decide)]

/-- Five times a byte fits in a word (R163). -/
theorem toNat_setWidth_mul_five (b : Byte) : (b.setWidth 16 * 5).toNat = b.toNat * 5 := by
  have hb := b.isLt
  rw [BitVec.toNat_mul, BitVec.toNat_setWidth_of_le (by decide)]
  exact Nat.mod_eq_of_lt (show b.toNat * 5 < 2 ^ 16 by omega)

/-! ### Block stores -/

/-- A block stored from I on after the advance touches pc and the bytes of the block only (R160). -/
theorem State.advance_setMem_storeBytes_frame (s : State) (hm : MemoryCanonical s) (bytes : List Byte) :
    ChangesOnly (.pc :: memParts s.i.toNat bytes.length) s
      (s.advance.setMem (Memory.storeBytes s.mem s.i.toNat bytes)) :=
  s.advance_frame.seq (s.advance.setMem_storeBytes_frame hm s.i.toNat bytes)

/-- A range fault of a block from I on names I, or 0x1000 where I is itself in memory (spec/60_exceptions.md R223). -/
theorem takesFault_of_firstBad (i : Instr) (s : State) (kind : FaultCause)
    (h : exec i s = .next (s.raise (some (encode i)) ⟨kind, firstBad s.i.toNat⟩)) :
    TakesFault i s kind (if s.i.toNat ≤ 0xFFF then 0x1000 else s.i) := by
  rw [firstBad_word] at h
  exact h

section
variable (i : Instr) (s : State) (bytes : List Byte) (h : exec i s = s.storeAtI i bytes)
include h

/-- A store that leaves memory (R164, R165). -/
theorem takesFault_of_storeAtI_above (hne : bytes ≠ []) (htop : 0x1000 < s.i.toNat + bytes.length) :
    TakesFault i s .memoryWrite (if s.i.toNat ≤ 0xFFF then 0x1000 else s.i) :=
  takesFault_of_firstBad i s _ (h.trans (s.storeAtI_of_error i bytes _ (writeBlock_range _ _ _ hne htop)))

/-- A store in memory that starts below 0x200 (R164, R165). -/
theorem takesFault_of_storeAtI_low (htop : s.i.toNat + bytes.length ≤ 0x1000) (hlow : s.i.toNat < 0x200) :
    TakesFault i s .lowMemoryWrite s.i := by
  have hfault := h.trans (s.storeAtI_of_error i bytes _ (writeBlock_low _ _ _ htop hlow))
  rw [BitVec.ofNat_toNat, BitVec.setWidth_eq] at hfault
  exact hfault

end

/-- FX33 on a writable block (R164). -/
theorem exec_ldB_of_writable (s : State) (x : Reg) (hlow : 0x200 ≤ s.i.toNat) (htop : s.i.toNat + 2 ≤ 0xFFF) :
    exec (.ldB x) s = .next (s.advance.setMem (Memory.storeBytes s.mem s.i.toNat (bcdDigits (s.getV x)))) :=
  s.storeAtI_of_ok _ _ _ (writeBlock_ok _ _ _ (Nat.succ_le_succ htop) hlow)

/-! ### Block loads -/

/-- FX65 on a block in memory (R166). -/
theorem exec_ldRegs_of_readable (s : State) (x : Reg) (htop : s.i.toNat + x.toNat ≤ 0xFFF) :
    exec (.ldRegs x) s =
      .next (s.advance.setRegs (loadFrom s.v 0 (Memory.readBytes s.mem s.i.toNat (x.toNat + 1)))) :=
  exec_ldRegs_of_ok s x _ (readBlock_ok _ _ _ _ (.inr (Nat.succ_le_succ htop)))

/-- After the load of V[0] to V[x], V[k] is the byte at offset k (R166). -/
theorem State.getV_loadFrom_readBytes (s : State) (v : Vector Byte 16) (m : Memory) (a : Nat) (x k : Reg)
    (hk : k.toNat ≤ x.toNat) :
    (s.setRegs (loadFrom v 0 (Memory.readBytes m a (x.toNat + 1)))).getV k = Memory.read m (a + k.toNat) := by
  rw [State.getV_setRegs, loadFrom_getElem, dif_pos (by rw [Memory.readBytes_length]; omega),
    Memory.readBytes_getElem, Nat.sub_zero]

/-- The parts FX65 loads are exactly the registers V[0] to V[x]. -/
theorem mem_regParts_iff_exists (p : Part) (x : Reg) : p ∈ regParts x ↔ ∃ r : Reg, r.toNat ≤ x.toNat ∧ p = .v r := by
  cases p with
  | v q => simp [mem_regParts]
  | _ => simp [not_mem_regParts]

end Sys2Proof.Machine
end

section
/-! PROOFS. The statements of spec/42_index_memory.md. -/

open Sys2Proof Sys2Proof.Machine

/-- Settles O26: the three values of I as numbers. -/
theorem indexRegisterWrites : Obligations.IndexRegisterWrites := by
  unfold Obligations.IndexRegisterWrites
  intro s x nnn
  exact ⟨⟨_, rfl, rfl, rfl, s.advance_setI_frame nnn⟩,
    ⟨_, rfl, toNat_add_setWidth s.i (s.getV x), rfl, s.advance_setI_frame _⟩,
    ⟨_, rfl, toNat_setWidth_mul_five (s.getV x), rfl, s.advance_setI_frame _⟩⟩

/-- Settles O27: the three cases of the store, the digits read back by their offset. -/
theorem decimalDigitsAreStored : Obligations.DecimalDigitsAreStored := by
  unfold Obligations.DecimalDigitsAreStored
  intro s x hm
  refine ⟨fun hlow htop => ?_, fun htop => ?_, fun hlow => ?_⟩
  · have hread := Memory.read_storeBytes_add s.mem hm s.i.toNat (bcdDigits (s.getV x)) (Nat.succ_le_succ htop)
    refine ⟨_, exec_ldB_of_writable s x hlow htop, ?_, ?_, ?_, rfl,
      s.advance_setMem_storeBytes_frame hm (bcdDigits (s.getV x))⟩
    · exact (congrArg BitVec.toNat (hread 0 (by simp))).trans BitVec.toNat_udiv
    · exact (congrArg BitVec.toNat (hread 1 (by simp))).trans BitVec.toNat_umod
    · exact (congrArg BitVec.toNat (hread 2 (by simp))).trans BitVec.toNat_umod
  · exact takesFault_of_storeAtI_above _ s (bcdDigits (s.getV x)) rfl (List.cons_ne_nil _ _) (Nat.succ_lt_succ htop)
  · exact takesFault_of_storeAtI_low _ s (bcdDigits (s.getV x)) rfl (by rw [bcdDigits_length]; omega) hlow

/-- Settles O28: the three cases of the store. -/
theorem registersAreStored : Obligations.RegistersAreStored := by
  unfold Obligations.RegistersAreStored
  intro s x hm
  have hlen := s.firstRegs_length x
  refine ⟨fun hlow htop => ?_, fun htop => ?_, fun hlow => ?_⟩
  · refine ⟨_, exec_stRegs_of_writable s x hlow htop, fun k hk => ?_, rfl,
      hlen ▸ s.advance_setMem_storeBytes_frame hm _⟩
    simpa using s.read_storeBytes_firstRegs hm x htop k.toNat hk
  · exact takesFault_of_storeAtI_above _ s (s.firstRegs x) rfl (List.ne_nil_of_length_eq_add_one hlen) (by omega)
  · have hx := x.isLt
    exact takesFault_of_storeAtI_low _ s (s.firstRegs x) rfl (by omega) hlow

/-- Settles O29: the two cases of the load's range check. -/
theorem registersAreLoaded : Obligations.RegistersAreLoaded := by
  unfold Obligations.RegistersAreLoaded
  intro s x
  constructor
  · intro htop
    exact ⟨_, exec_ldRegs_of_readable s x htop, s.advance.getV_loadFrom_readBytes s.v s.mem s.i.toNat x, rfl,
      s.advance_frame.seq (s.advance.setRegs_loadFrom_frame x _ (Memory.readBytes_length _ _ _))⟩
  · intro htop
    exact takesFault_of_firstBad _ s _
      (exec_ldRegs_of_error s x _ (readBlock_error _ _ _ _ (Nat.succ_ne_zero _) (Nat.succ_lt_succ htop)))

/-- Settles O30: the store keeps I, so the load reads each register's own byte; the other parts are in both frames. -/
theorem storeThenLoadRestoresRegisters : Obligations.StoreThenLoadRestoresRegisters := by
  unfold Obligations.StoreThenLoadRestoresRegisters
  intro s x hm hlow htop
  obtain ⟨t, hstore, hbytes, -, hkept⟩ := (registersAreStored s x hm).1 hlow htop
  have hi : t.i = s.i := hkept .i (by simp [not_mem_memParts])
  rw [← hi] at htop hbytes
  obtain ⟨u, hload, hregs, -, hkept'⟩ := (registersAreLoaded t x).1 htop
  refine ⟨t, u, hstore, hload, fun p hp => ?_⟩
  by_cases hr : p ∈ regParts x
  · obtain ⟨r, hle, rfl⟩ := (mem_regParts_iff_exists p x).1 hr
    exact (hregs r hle).trans (hbytes r hle)
  · have hpc : p ≠ .pc := List.ne_of_not_mem_cons hp
    exact p.same_trans s t u (hkept p hp) (hkept' p (List.not_mem_cons_of_ne_of_not_mem hpc hr))

end

section
/-! PROOFS. A draw in closed form: the sprite's bit at each pixel of the display, the collision, and the one state a draw
whose rows lie in memory ends in. -/

namespace Sys2Proof.Machine

/-! ### The sprite's bits -/

/-- A pixel that is on lies inside the display. -/
theorem Display.lt_of_pixel (d : Display) (y x : Nat) (h : Display.pixel d y x = true) : y < 32 ∧ x < 64 := by
  by_contra hout
  simp [Display.pixel_outside d y x (by omega)] at h

/-- The bits of the rows read from memory are the sprite's. -/
theorem bytesBit_readBytes (m : Memory) (a x0 y0 n y x : Nat) :
    bytesBit (Memory.readBytes m a n) x0 y0 y x = spriteBit m a x0 y0 n y x := by
  rw [bytesBit, spriteBit, Memory.readBytes_length]
  by_cases h : y0 ≤ y ∧ y < y0 + n ∧ x0 ≤ x ∧ x < x0 + 8
  · have hrow : y - y0 < (Memory.readBytes m a n).length := by rw [Memory.readBytes_length]; omega
    rw [List.getD_eq_getElem _ _ hrow, Memory.readBytes_getElem]
  · rw [decide_eq_false h, Bool.false_and, Bool.false_and]

/-- Inside the display the rows that are not drawn have no bit: they lie below the last one (spec/43_display.md R182). -/
theorem spriteBit_drawnRows (m : Memory) (a x0 y0 n y x : Nat) (hy : y < 32) :
    spriteBit m a x0 y0 (drawnRows y0 n) y x = spriteBit m a x0 y0 n y x := by
  have hrows : (y0 ≤ y ∧ y < y0 + drawnRows y0 n ∧ x0 ≤ x ∧ x < x0 + 8) ↔
      (y0 ≤ y ∧ y < y0 + n ∧ x0 ≤ x ∧ x < x0 + 8) := by
    simp only [drawnRows, Config.dispH]
    omega
  simp only [spriteBit, hrows]

/-- The sprite's bits depend on its n bytes only. -/
theorem spriteBit_congr (m m' : Memory) (a a' x0 y0 n : Nat)
    (h : ∀ k, k < n → Memory.read m (a + k) = Memory.read m' (a' + k)) (y x : Nat) :
    spriteBit m a x0 y0 n y x = spriteBit m' a' x0 y0 n y x := by
  by_cases hin : y0 ≤ y ∧ y < y0 + n ∧ x0 ≤ x ∧ x < x0 + 8
  · rw [spriteBit, spriteBit, h (y - y0) (by omega)]
  · rw [spriteBit, spriteBit, decide_eq_false hin, Bool.false_and, Bool.false_and]

/-- A set bit of the sprite lies in its 8 by n rectangle. -/
theorem mem_rectangle_of_spriteBit (m : Memory) (a x0 y0 n y x : Nat) (h : spriteBit m a x0 y0 n y x = true) :
    y0 ≤ y ∧ y < y0 + n ∧ x0 ≤ x ∧ x < x0 + 8 :=
  of_decide_eq_true (Bool.and_elim_left h)

/-- The bit DXYN draws at row py and column px in the state s. -/
def State.spriteAt (s : State) (x y : Reg) (n py px : Nat) : Bool :=
  spriteBit s.mem s.i.toNat (s.spriteX x) (s.spriteY y) n py px

/-- DXYN draws the same bits in two states with the same V[X], V[Y] and sprite bytes (R183). -/
theorem State.spriteAt_congr (s s' : State) (x y : Reg) (n : Nat) (hx : s.getV x = s'.getV x)
    (hy : s.getV y = s'.getV y)
    (hmem : ∀ k, k < n → Memory.read s.mem (s.i.toNat + k) = Memory.read s'.mem (s'.i.toNat + k)) :
    s.spriteAt x y n = s'.spriteAt x y n := by
  funext py px
  rw [State.spriteAt, State.spriteAt, State.spriteX, State.spriteX, State.spriteY, State.spriteY, hx, hy]
  exact spriteBit_congr _ _ _ _ _ _ n hmem py px

/-- A set bit of the sprite meets a lit pixel of the display. -/
def State.Collides (s : State) (x y : Reg) (n : Nat) : Prop :=
  ∃ py px, py < 32 ∧ px < 64 ∧ s.spriteAt x y n py px = true ∧ Display.pixel s.disp py px = true

/-! ### The draw -/

/-- DXYN completes in t: each pixel is XORed with the sprite's bit there, VF reports the collision, and beside them only
pc changes (R182). -/
structure Draws (x y : Reg) (n : Nat) (s t : State) : Prop where
  next : exec (.drw x y n) s = .next t
  pixel : ∀ py px, py < 32 → px < 64 →
    Display.pixel t.disp py px = xor (Display.pixel s.disp py px) (s.spriteAt x y n py px)
  flag_of_collides : s.Collides x y n → t.getV Reg.flag = 1
  flag_of_not_collides : ¬ s.Collides x y n → t.getV Reg.flag = 0
  pc_eq : t.pc = s.pc + 2
  frame : ChangesOnly [.pc, .v Reg.flag, .disp] s t

/-- The bytes of the drawn rows. -/
abbrev State.drawnBytes (s : State) (y : Reg) (n : Nat) : List Byte :=
  Memory.readBytes s.mem s.i.toNat (drawnRows (s.spriteY y) n)

/-- The drawn rows do not pass the last row of the display. -/
theorem State.spriteY_add_length_drawnBytes_le (s : State) (y : Reg) (n : Nat) :
    s.spriteY y + (s.drawnBytes y n).length ≤ 32 := by
  simp only [Memory.readBytes_length, State.spriteY, drawnRows, Config.dispH]
  omega

/-- Inside the display the bits of the drawn rows are the sprite's. -/
theorem State.bytesBit_drawnBytes (s : State) (x y : Reg) (n py px : Nat) (hy : py < 32) :
    bytesBit (s.drawnBytes y n) (s.spriteX x) (s.spriteY y) py px = s.spriteAt x y n py px :=
  (bytesBit_readBytes _ _ _ _ _ _ _).trans (spriteBit_drawnRows _ _ _ _ _ _ _ hy)

/-- The canvas of the drawn rows has every pixel XORed with the sprite's bit there (R182). -/
theorem State.pixel_drawnCanvas (s : State) (x y : Reg) (n py px : Nat) (hy : py < 32) (hx : px < 64) :
    Display.pixel (s.drawnCanvas x y (s.drawnBytes y n)).disp py px =
      xor (Display.pixel s.disp py px) (s.spriteAt x y n py px) := by
  rw [State.drawnCanvas, Canvas.pixel_drawRows _ _ _ _ (s.spriteY_add_length_drawnBytes_le y n) py px hx,
    s.bytesBit_drawnBytes x y n py px hy]

/-- The canvas of the drawn rows reports the collision (R182). -/
theorem State.hit_drawnCanvas (s : State) (x y : Reg) (n : Nat) :
    (s.drawnCanvas x y (s.drawnBytes y n)).hit = true ↔ s.Collides x y n := by
  rw [State.drawnCanvas, Canvas.hit_drawRows _ _ _ _ (s.spriteY_add_length_drawnBytes_le y n)]
  constructor
  · rintro (h | ⟨py, px, hx, hset, hlit⟩)
    · exact absurd h Bool.false_ne_true
    · obtain ⟨hy, -⟩ := Display.lt_of_pixel _ _ _ hlit
      exact ⟨py, px, hy, hx, (s.bytesBit_drawnBytes x y n py px hy).symm.trans hset, hlit⟩
  · rintro ⟨py, px, hy, hx, hset, hlit⟩
    exact .inr ⟨py, px, hx, (s.bytesBit_drawnBytes x y n py px hy).trans hset, hlit⟩

/-- A draw completes when it draws no row or its drawn rows lie in memory (R182). -/
theorem draws_of_drawnRows (s : State) (x y : Reg) (n : Nat)
    (h : drawnRows (s.spriteY y) n = 0 ∨ s.i.toNat + drawnRows (s.spriteY y) n ≤ 0x1000) :
    ∃ t, Draws x y n s t := by
  refine ⟨_, exec_drw_of_ok s x y n _ (readBlock_ok _ _ _ _ h), s.pixel_drawnCanvas x y n, fun hc => ?_, fun hc => ?_,
    rfl, (s.advance_frame.seq (State.setV_frame _ _ _)).seq (State.setDisp_frame _ _)⟩
  · have hhit := (s.hit_drawnCanvas x y n).2 hc
    simp [hhit, collision, flagByte]
  · have hclear := (s.hit_drawnCanvas x y n).not.2 hc
    simp [hclear, collision, flagByte]

/-- A draw completes when its n bytes lie in memory, drawn or not. -/
theorem draws_of_bytes (s : State) (x y : Reg) (n : Nat) (h : s.i.toNat + n ≤ 0x1000) : ∃ t, Draws x y n s t :=
  draws_of_drawnRows s x y n (.inr (le_trans (Nat.add_le_add_left (Nat.min_le_left _ _) _) h))

/-- A draw completes, or takes the read fault of its first byte above 0xFFF (R182). -/
theorem drw_cases (s : State) (x y : Reg) (n : Nat) :
    (∃ t, Draws x y n s t) ∨ TakesFault (.drw x y n) s .memoryRead (if s.i.toNat ≤ 0xFFF then 0x1000 else s.i) := by
  rcases readBlock_cases .memoryRead s.mem s.i.toNat (drawnRows (s.spriteY y) n) with ⟨h, -⟩ | ⟨-, -, h⟩
  · exact .inl (draws_of_drawnRows s x y n h)
  · exact .inr (takesFault_of_firstBad _ s _ (exec_drw_of_error s x y n _ h))

section
variable {x y : Reg} {n : Nat} {s t : State} (h : Draws x y n s t)
include h

/-- VF after a draw is 1 exactly on a collision. -/
theorem Draws.flag_eq_one_iff : t.getV Reg.flag = 1 ↔ s.Collides x y n := by
  refine ⟨fun hone => ?_, h.flag_of_collides⟩
  by_contra hc
  exact absurd ((h.flag_of_not_collides hc).symm.trans hone) (by decide)

/-- A collision turns a pixel off, and a pixel goes off by a collision only (R183). -/
theorem Draws.collides_iff_turnedOff :
    s.Collides x y n ↔ ∃ py px, Display.pixel s.disp py px = true ∧ Display.pixel t.disp py px = false := by
  constructor
  · rintro ⟨py, px, hy, hx, hset, hlit⟩
    exact ⟨py, px, hlit, by rw [h.pixel py px hy hx, hset, hlit]; rfl⟩
  · rintro ⟨py, px, hlit, hoff⟩
    obtain ⟨hy, hx⟩ := Display.lt_of_pixel _ _ _ hlit
    rw [h.pixel py px hy hx, hlit] at hoff
    exact ⟨py, px, hy, hx, by simpa using hoff, hlit⟩

/-- A draw changes a pixel only inside the display and under a set bit of the sprite. -/
theorem Draws.spriteAt_of_changed (py px : Nat) (hne : Display.pixel t.disp py px ≠ Display.pixel s.disp py px) :
    py < 32 ∧ px < 64 ∧ s.spriteAt x y n py px = true := by
  by_cases hin : py < 32 ∧ px < 64
  · obtain ⟨hy, hx⟩ := hin
    rw [h.pixel py px hy hx] at hne
    refine ⟨hy, hx, ?_⟩
    by_contra hclear
    exact hne (by rw [Bool.eq_false_of_not_eq_true hclear, Bool.xor_false])
  · have hout : 32 ≤ py ∨ 64 ≤ px := by omega
    exact absurd (by rw [Display.pixel_outside _ _ _ hout, Display.pixel_outside _ _ _ hout]) hne

/-- After a draw whose X and Y are not F, the same draw has the same bits. -/
theorem Draws.spriteAt_eq (hx : x ≠ Reg.flag) (hy : y ≠ Reg.flag) : t.spriteAt x y n = s.spriteAt x y n := by
  have hi : t.i = s.i := h.frame .i (by simp)
  refine State.spriteAt_congr t s x y n (h.frame (.v x) (by simpa using hx)) (h.frame (.v y) (by simpa using hy))
    fun k _ => ?_
  rw [hi]
  exact h.frame (.mem _) (by simp)

end

/-- The same draw again restores every pixel, the XOR being its own inverse. -/
theorem Draws.disp_eq_of_again {x y : Reg} {n : Nat} {s t u : State} (h : Draws x y n s t) (h' : Draws x y n t u)
    (hsame : t.spriteAt x y n = s.spriteAt x y n) : u.disp = s.disp :=
  Display.ext_pixel _ _ fun py px hy hx => by
    rw [h'.pixel py px hy hx, hsame, h.pixel py px hy hx, Bool.xor_assoc, Bool.xor_self, Bool.xor_false]

/-- The same draw again collides where a set bit stood on a pixel that was off: the first draw turned it on. -/
theorem Draws.collides_again_iff {x y : Reg} {n : Nat} {s t : State} (h : Draws x y n s t)
    (hsame : t.spriteAt x y n = s.spriteAt x y n) :
    t.Collides x y n ↔
      ∃ py px, py < 32 ∧ px < 64 ∧ Display.pixel s.disp py px = false ∧ s.spriteAt x y n py px = true := by
  rw [State.Collides, hsame]
  refine exists₂_congr fun py px => and_congr_right fun hy => and_congr_right fun hx => ?_
  rw [h.pixel py px hy hx, and_comm]
  refine and_congr_left fun hset => ?_
  rw [hset, Bool.xor_true, Bool.not_eq_true']

/-- Draws of the same bits on the same display leave the same display and the same VF. -/
theorem Draws.result_eq {x y : Reg} {n : Nat} {s s' t t' : State} (h : Draws x y n s t) (h' : Draws x y n s' t')
    (hdisp : s.disp = s'.disp) (hsame : s.spriteAt x y n = s'.spriteAt x y n) :
    t.disp = t'.disp ∧ t.getV Reg.flag = t'.getV Reg.flag := by
  constructor
  · exact Display.ext_pixel _ _ fun py px hy hx => by
      rw [h.pixel py px hy hx, h'.pixel py px hy hx, hdisp, hsame]
  · have hiff : s.Collides x y n ↔ s'.Collides x y n := by rw [State.Collides, State.Collides, hdisp, hsame]
    by_cases hc : s.Collides x y n
    · rw [h.flag_of_collides hc, h'.flag_of_collides (hiff.1 hc)]
    · rw [h.flag_of_not_collides hc, h'.flag_of_not_collides (hiff.not.1 hc)]

/-! ### The display with every pixel on -/

/-- Every pixel on. -/
def Display.allOn : Display := Vector.replicate 32 (Vector.replicate 64 true)

theorem Display.pixel_allOn (y x : Nat) (hy : y < 32) (hx : x < 64) : Display.pixel Display.allOn y x = true := by
  simp [Display.pixel, Display.allOn, hy, hx]

end Sys2Proof.Machine
end

section
/-! PROOFS. The statements of spec/43_display.md. -/

open Sys2Proof Sys2Proof.Machine

/-- Settles O33: CLS replaces the display by the blank one. -/
theorem clearTurnsEveryPixelOff : Obligations.ClearTurnsEveryPixelOff := by
  unfold Obligations.ClearTurnsEveryPixelOff
  intro s
  exact ⟨_, rfl, Display.pixel_blank, rfl, s.advance_frame.seq (State.setDisp_frame _ _)⟩

/-- Settles O34: the two cases of the range check of the drawn rows. -/
theorem drawXorsSpriteAndReportsCollision : Obligations.DrawXorsSpriteAndReportsCollision := by
  unfold Obligations.DrawXorsSpriteAndReportsCollision
  intro s x y n
  constructor
  · intro hrows
    obtain ⟨t, ht⟩ := draws_of_drawnRows s x y n hrows
    refine ⟨t, ht.next, ht.pixel, ht.flag_of_collides, fun hoff => ht.flag_of_not_collides ?_, ht.pc_eq, ht.frame⟩
    rintro ⟨py, px, hy, hx, hset, hlit⟩
    exact absurd ((hoff py px hy hx hset).symm.trans hlit) Bool.false_ne_true
  · intro hrows htop
    exact takesFault_of_firstBad _ s _ (exec_drw_of_error s x y n _ (readBlock_error _ _ _ _ hrows htop))

/-- Settles O35: a draw that faults does not stay Running; in any other, what changes a pixel is a set bit there. -/
theorem collisionIsAPixelTurnedOff : Obligations.CollisionIsAPixelTurnedOff := by
  unfold Obligations.CollisionIsAPixelTurnedOff
  intro s t x y n hnext hrun hrunning
  rcases drw_cases s x y n with ⟨u, hu⟩ | hfault
  · cases hu.next.symm.trans hnext
    refine ⟨hu.flag_eq_one_iff.trans hu.collides_iff_turnedOff, fun py px hne => ?_⟩
    obtain ⟨hy, hx, hset⟩ := hu.spriteAt_of_changed py px hne
    obtain ⟨hy0, hyn, hx0, hx8⟩ : (s.getV y).toNat % 32 ≤ py ∧ py < (s.getV y).toNat % 32 + n ∧
      (s.getV x).toNat % 64 ≤ px ∧ px < (s.getV x).toNat % 64 + 8 := mem_rectangle_of_spriteBit _ _ _ _ _ _ _ hset
    omega
  · cases hfault.symm.trans hnext
    exact absurd (hrun.trans hrunning) (by simp)

/-- Settles O36: neither V[X], V[Y], I nor memory changes at the first draw, so the second one has the same bits. -/
theorem drawTwiceRestoresDisplay : Obligations.DrawTwiceRestoresDisplay := by
  unfold Obligations.DrawTwiceRestoresDisplay
  intro s x y n hx hy hmem
  obtain ⟨t, ht⟩ := draws_of_bytes s x y n hmem
  have hi : t.i = s.i := ht.frame .i (by simp)
  have hsame := ht.spriteAt_eq hx hy
  obtain ⟨u, hu⟩ := draws_of_bytes t x y n (hi.symm ▸ hmem)
  have hdisp := ht.disp_eq_of_again hu hsame
  refine ⟨t, u, ht.next, hu.next, hdisp, hu.flag_eq_one_iff.trans (ht.collides_again_iff hsame), fun p hp => ?_⟩
  by_cases hpd : p = .disp
  · exact hpd ▸ hdisp
  · exact (ht.frame.trans _ _ _ _ hu.frame) p (by simpa [hpd] using hp)

/-- Refutes O37: with every pixel on, the glyph row at I = 0 has set bits, and none of them stands on a pixel that was
off, so the second draw does not collide (log entry 12). -/
theorem not_secondDrawAlwaysCollides : ¬ Obligations.SecondDrawAlwaysCollides := by
  unfold Obligations.SecondDrawAlwaysCollides
  intro h
  have hx : (0 : Reg) ≠ Reg.flag := by decide
  have hy : (1 : Reg) ≠ Reg.flag := by decide
  have hmem : (State.reset.setDisp Display.allOn).i.toNat + 1 ≤ 0x1000 := by decide
  obtain ⟨t, u, ht, hu, -, hcollides⟩ := h _ 0 1 1 hx hy hmem
  obtain ⟨t', u', ht', hu', -, hmeets, -⟩ := drawTwiceRestoresDisplay _ 0 1 1 hx hy hmem
  cases ht.symm.trans ht'
  cases hu.symm.trans hu'
  have hflag : u.getV Reg.flag = 1 := hcollides.2 ⟨0, 0, by decide, by decide, by decide⟩
  obtain ⟨py, px, hpy, hpx, hoff, -⟩ := hmeets.1 hflag
  exact absurd (hoff.symm.trans (Display.pixel_allOn py px hpy hpx)) Bool.false_ne_true

/-- Settles O38: both draws complete, with the same bits on the same display. -/
theorem drawDependsOnItsInputsOnly : Obligations.DrawDependsOnItsInputsOnly := by
  unfold Obligations.DrawDependsOnItsInputsOnly
  intro s s' x y n hdisp hx hy hbytes hmem hmem'
  obtain ⟨t, ht⟩ := draws_of_bytes s x y n hmem
  obtain ⟨t', ht'⟩ := draws_of_bytes s' x y n hmem'
  exact ⟨t, t', ht.next, ht'.next, ht.result_eq ht' hdisp (s.spriteAt_congr s' x y n hx hy hbytes)⟩

end

section
/-! PROOFS. The keypad latch: the keys of the latch as statements name them, a key skip on a register that names a key
and on one that names none, and the two cases of the key wait. -/

namespace Sys2Proof.Machine

/-- The level read by number is the one the latch holds (spec/10_state.md R33). -/
@[simp] theorem State.key_val (s : State) (k : Fin 16) : s.key k.val = s.keys[k] := by
  simp [State.key]

/-- The pressed keys, as keys of the latch (spec/44_keypad_timer_ops.md R204). -/
theorem State.mem_pressed_iff_exists (s : State) (k : Nat) :
    k ∈ s.pressed ↔ ∃ q : Fin 16, s.keys[q] = true ∧ q.val = k := by
  rw [State.mem_pressed]
  constructor
  · rintro ⟨hlt, hkey⟩
    exact ⟨⟨k, hlt⟩, (s.key_val ⟨k, hlt⟩).symm.trans hkey, rfl⟩
  · rintro ⟨q, hq, rfl⟩
    exact ⟨q.isLt, (s.key_val q).trans hq⟩

/-- No key is pressed exactly when every level is 0 (R204). -/
theorem State.pressed_eq_nil_iff (s : State) : s.pressed = [] ↔ ∀ k : Fin 16, s.keys[k] = false := by
  simp [List.eq_nil_iff_forall_not_mem, State.mem_pressed_iff_exists]

section
variable (i : Instr) (s : State) (x : Reg) (want : Bool) (h : exec i s = s.skipOnKey i x want)
include h

/-- A key skip on a register that names key k compares the level of k and changes pc only (R201, R202). -/
theorem exec_of_skipOnKey_of_eq (k : Fin 16) (hk : (s.getV x).toNat = k.val) :
    ∃ t, exec i s = .next t ∧ t.pc = (if s.keys[k] = want then s.pc + 4 else s.pc + 2) ∧ ChangesOnly [.pc] s t := by
  rcases s.skipOnKey_cases i x want with ⟨-, hskip⟩ | ⟨habove, -⟩
  · refine ⟨_, h.trans hskip, ?_, s.setPc_frame _⟩
    simp only [State.setPc_pc, hk, State.key_val, beq_iff_eq]
  · omega

/-- A key skip on a register that names no key takes the fault with the register as its info (R200). -/
theorem takesFault_of_skipOnKey (habove : 0xF < (s.getV x).toNat) :
    TakesFault i s .keyIndex ((s.getV x).setWidth 16) := by
  rcases s.skipOnKey_cases i x want with ⟨hle, -⟩ | ⟨-, hfault⟩
  · omega
  · exact h.trans hfault

end

/-- FX0A with a key pressed: the code of some pressed key, whichever is chosen, in V[x], and the wait ended (R204). -/
theorem exec_ldVxK_takes (s : State) (x : Reg) (h : s.pressed ≠ []) :
    ∃ t, exec (.ldVxK x) s = .next t ∧ (∃ k : Fin 16, s.keys[k] = true ∧ (t.getV x).toNat = k.val) ∧
      t.pc = s.pc + 2 ∧ t.keyWait = false ∧ ChangesOnly [.pc, .v x, .keyWait, .keyPicks] s t := by
  obtain ⟨c, hc, hnext⟩ := exec_ldVxK_of_pressed s x h
  obtain ⟨k, hk, rfl⟩ := (s.mem_pressed_iff_exists c).1 hc
  refine ⟨_, hnext, ⟨k, hk, ?_⟩, rfl, rfl,
    ((s.advance_frame.seq (State.setV_frame _ x _)).seq (State.setWait_frame _ false)).seq (State.countPick_frame _)⟩
  have hbyte : k.val % 2 ^ 8 = k.val := Nat.mod_eq_of_lt (k.isLt.trans (by decide))
  simpa using hbyte

end Sys2Proof.Machine
end

section
/-! PROOFS. The statements of spec/44_keypad_timer_ops.md. -/

open Sys2Proof Sys2Proof.Machine

/-- Settles O39: the two key skips are one operation, with the level they skip on; no level is both. -/
theorem keySkipsReadTheLatch : Obligations.KeySkipsReadTheLatch := by
  unfold Obligations.KeySkipsReadTheLatch
  intro s x
  constructor
  · intro k hk
    have hskp := exec_of_skipOnKey_of_eq (.skp x) s x true rfl k hk
    have hsknp := exec_of_skipOnKey_of_eq (.sknp x) s x false rfl k hk
    simp only [← Bool.not_eq_true, ite_not] at hsknp
    exact ⟨hskp, hsknp⟩
  · intro habove
    exact ⟨takesFault_of_skipOnKey (.skp x) s x true rfl habove, takesFault_of_skipOnKey (.sknp x) s x false rfl habove⟩

/-- Settles O40: each timer instruction is the advance and one update. -/
theorem timersAreReadAndWritten : Obligations.TimersAreReadAndWritten := by
  unfold Obligations.TimersAreReadAndWritten
  intro s x
  exact ⟨exec_of_setV (.ldVxDt x) s x s.dt rfl,
    ⟨_, rfl, rfl, rfl, s.advance_frame.seq (State.setDt_frame _ _)⟩,
    ⟨_, rfl, rfl, rfl, s.advance_frame.seq (State.setSt_frame _ _)⟩⟩

/-- Settles O41: the pressed keys are none, or a list the given key is in, from which one is taken. -/
theorem keyWaitRewindsOrTakesAPressedKey : Obligations.KeyWaitRewindsOrTakesAPressedKey := by
  unfold Obligations.KeyWaitRewindsOrTakesAPressedKey
  intro s x
  constructor
  · intro hnone
    exact ⟨_, exec_ldVxK_of_none s x (s.pressed_eq_nil_iff.2 hnone), rfl, rfl, s.setWait_frame true⟩
  · intro q hq
    exact exec_ldVxK_takes s x (List.ne_nil_of_mem ((s.mem_pressed_iff_exists q).2 ⟨q, hq, rfl⟩))

end

section
/-! PROOFS. The host interface: what a step of a Running core does to RunState and FaultRec, what every other interaction
does, and one induction over the schedules of the host. -/

namespace Sys2Proof.Machine

/-! ### The step (spec/60_exceptions.md R221 to R224) -/

/-- A core that is not Running keeps its state at a step (R221). -/
theorem step_of_not_running (s : State) (h : s.runState ≠ .running) : step s = .next s := by
  rcases step_cases s with ⟨-, hs⟩ | ⟨hr, -⟩ | ⟨hr, -⟩ | ⟨hr, -⟩
  · exact hs
  all_goals exact absurd hr h

/-- A core that is not Running emits no event (R221). -/
theorem stepDiag_of_not_running (s : State) (h : s.runState ≠ .running) : stepDiag s = none := by
  unfold stepDiag
  split
  · exact absurd ‹_› h
  · rfl

/-- No instruction lists RunState or FaultRec among the parts it writes when it completes (R220). -/
theorem runState_faultRec_not_written (s : State) (i : Instr) :
    .runState ∉ writtenParts s i ∧ .faultRec ∉ writtenParts s i := by
  cases i with
  | ldB | stRegs => simp [writtenParts, not_mem_memParts]
  | ldRegs => simp [writtenParts, not_mem_regParts]
  | _ => simp [writtenParts]

/-- The cause a step of a Running core may fault by, with the opcode it records: the fetch fault, with none, or a cause of
the decoded instruction, with the fetched word (R222, R224). -/
inductive FaultOfStep (s : State) : Option Word → FaultCause → Prop
  | fetch (h : 0xFFF < s.pc.toNat + 1) : FaultOfStep s none .memoryFetch
  | exec (hpc : s.pc.toNat + 1 ≤ 0xFFF) (i : Instr) (c : FaultCause) (hd : decodeWord (wordAt s s.pc.toNat) = .ok i)
      (hcan : canRaise i c = true) : FaultOfStep s (some (wordAt s s.pc.toNat)) c

/-- The recorded opcode depends on the fetch alone (R222). -/
theorem FaultOfStep.opcode_eq {s : State} {o : Option Word} {c : FaultCause} (h : FaultOfStep s o c) :
    o = if 0xFFF < s.pc.toNat + 1 then none else some (wordAt s s.pc.toNat) := by
  cases h with
  | fetch h => rw [if_pos h]
  | exec hpc => rw [if_neg (Nat.not_lt.2 hpc)]

/-- Everything a step of a Running core can do to RunState and FaultRec: it leaves both, or it faults and changes nothing
but both. -/
theorem step_of_running_cases (s t : State) (hr : s.runState = .running) (h : step s = .next t) :
    (t.runState = .running ∧ t.faultRec = s.faultRec) ∨ ∃ o f, FaultOfStep s o f.cause ∧ t = s.raise o f := by
  rcases step_cases s with ⟨hno, -⟩ | ⟨-, hpc, hs⟩ | ⟨-, hpc, w, i, hw, hd, hs⟩ | ⟨-, -, w, -, -, hs⟩
  · exact absurd hr hno
  · cases hs.symm.trans h
    exact .inr ⟨_, _, .fetch (Nat.succ_lt_succ hpc), rfl⟩
  · obtain rfl : wordAt s s.pc.toNat = w := Except.ok.inj ((s.fetch_ok hpc).symm.trans hw)
    obtain ⟨hrun, hrec⟩ := runState_faultRec_not_written s i
    rcases exec_cases i s with ⟨u, hu⟩ | ⟨cause, info, hcan, hf⟩
    · cases hu.next.symm.trans (hs.symm.trans h)
      exact .inl ⟨(hu.frame .runState hrun).trans hr, hu.frame .faultRec hrec⟩
    · obtain ⟨-, hword⟩ := wellFormed_and_encode_of_decodeWord _ i hd
      rw [TakesFault, hword] at hf
      cases hf.symm.trans (hs.symm.trans h)
      exact .inr ⟨_, ⟨cause, info⟩, .exec (Nat.succ_le_succ hpc) i cause hd hcan, rfl⟩
  · cases hs.symm.trans h
    exact .inl ⟨hr, rfl⟩

/-! ### The other interactions (R220, R235, R236, R239) -/

theorem State.setKeys_frame (s : State) (levels : KeyLevels) : ChangesOnly [.keys] s (s.setKeys levels) := by
  intro p hp
  cases p with
  | keys => simp at hp
  | _ => rfl

theorem State.setRun_frame (s : State) (r : RunState) : ChangesOnly [.runState] s (s.setRun r) := by
  intro p hp
  cases p with
  | runState => simp at hp
  | _ => rfl

/-- A tick counts both timers down when Running and does nothing otherwise (R235, R236). -/
theorem tick_cases (s : State) :
    (s.runState = .running ∧ tick s = (s.setDt (countDown s.dt)).setSt (countDown s.st)) ∨
    (s.runState ≠ .running ∧ tick s = s) := by
  unfold tick
  split
  · exact .inl ⟨‹_›, rfl⟩
  · exact .inr ⟨‹_›, rfl⟩

theorem pause_cases (s : State) :
    (s.runState = .running ∧ pause s = s.setRun .paused) ∨ (s.runState ≠ .running ∧ pause s = s) := by
  unfold pause
  split
  · exact .inl ⟨‹_›, rfl⟩
  · exact .inr ⟨‹_›, rfl⟩

theorem resume_cases (s : State) :
    (s.runState = .paused ∧ resume s = s.setRun .running) ∨ (s.runState ≠ .paused ∧ resume s = s) := by
  unfold resume
  split
  · exact .inl ⟨‹_›, rfl⟩
  · exact .inr ⟨‹_›, rfl⟩

theorem quit_cases (s : State) :
    ((s.runState = .running ∨ s.runState = .paused) ∧ quit s = s.setRun .haltedQuit) ∨
    ((s.runState = .haltedQuit ∨ s.runState = .faulted) ∧ quit s = s) := by
  unfold quit
  cases s.runState <;> simp

theorem toNat_countDown (b : Byte) : (countDown b).toNat = b.toNat - 1 := by
  unfold countDown
  split
  · next h => simp [h]
  · bv_omega

/-- A tick touches the timers only, in any RunState. -/
theorem tick_frame (s : State) : ChangesOnly [.dt, .st] s (tick s) := by
  rcases tick_cases s with ⟨-, h⟩ | ⟨-, h⟩ <;> rw [h]
  · exact (s.setDt_frame _).seq (State.setSt_frame _ _)
  · exact fun p _ => p.same_refl s

/-- Every interaction completes: `step` by its four cases, the others by definition. -/
theorem interact_completes (e : Interaction) (s : State) : ∃ t, interact e s = .next t := by
  cases e with
  | step => exact everyStepCompletes s
  | _ => exact ⟨_, rfl⟩

/-! ### Schedules (R240, R244) -/

/-- A property that every interaction of the schedule completes with and keeps holds after the schedule. -/
theorem interactAll_keeps (P : State → Prop) (es : List Interaction)
    (hkeeps : ∀ e ∈ es, ∀ s, P s → ∃ t, interact e s = .next t ∧ P t) (s : State) (hs : P s) :
    ∃ t, interactAll es s = .next t ∧ P t := by
  induction es generalizing s with
  | nil => exact ⟨s, rfl, hs⟩
  | cons e rest ih =>
    obtain ⟨t, ht, hPt⟩ := hkeeps e List.mem_cons_self s hs
    obtain ⟨u, hu, hPu⟩ := ih (fun e' he' => hkeeps e' (List.mem_cons_of_mem e he')) t hPt
    exact ⟨u, by rw [interactAll, ht]; exact hu, hPu⟩

/-! ### The terminal run-states -/

/-- In Halted(Quit) and Faulted an interaction writes the latch or changes nothing (R220, R221, R236, R239). -/
theorem interact_of_terminal (e : Interaction) (s : State) (h : s.runState = .haltedQuit ∨ s.runState = .faulted) :
    ∃ levels, interact e s = .next (s.setKeys levels) := by
  have hrun : s.runState ≠ .running := by rcases h with h | h <;> simp [h]
  have hpaused : s.runState ≠ .paused := by rcases h with h | h <;> simp [h]
  cases e with
  | step => exact ⟨s.keys, step_of_not_running s hrun⟩
  | latchKeys levels => exact ⟨levels, rfl⟩
  | tick => exact ⟨s.keys, congrArg _ ((tick_cases s).resolve_left fun hc => hrun hc.1).2⟩
  | pause => exact ⟨s.keys, congrArg _ ((pause_cases s).resolve_left fun hc => hrun hc.1).2⟩
  | resume => exact ⟨s.keys, congrArg _ ((resume_cases s).resolve_left fun hc => hpaused hc.1).2⟩
  | quit => exact ⟨s.keys, congrArg _ ((quit_cases s).resolve_left fun hc => hc.1.elim hrun hpaused).2⟩

/-- So does every schedule: two latch writes leave what the second one leaves. -/
theorem interactAll_of_terminal (es : List Interaction) (s : State)
    (h : s.runState = .haltedQuit ∨ s.runState = .faulted) :
    ∃ levels, interactAll es s = .next (s.setKeys levels) := by
  obtain ⟨t, ht, levels, rfl⟩ := interactAll_keeps (fun t => ∃ levels, t = s.setKeys levels) es
    (by
      rintro e - t ⟨levels, rfl⟩
      obtain ⟨levels', h'⟩ := interact_of_terminal e (s.setKeys levels) h
      exact ⟨_, h', levels', rfl⟩)
    s ⟨s.keys, rfl⟩
  exact ⟨levels, ht⟩

/-! ### The invariants -/

/-- A step leaves a fault recorded exactly in Faulted (R222). -/
theorem step_faultRecorded (s t : State) (hf : FaultRecorded s) (h : step s = .next t) : FaultRecorded t := by
  by_cases hr : s.runState = .running
  · rcases step_of_running_cases s t hr h with ⟨hrun, hrec⟩ | ⟨o, f, -, rfl⟩
    · rw [FaultRecorded, hrun, hrec, ← hr]
      exact hf
    · exact iff_of_true rfl (Option.some_ne_none _)
  · cases (step_of_not_running s hr).symm.trans h
    exact hf

/-- A step keeps all invariants. -/
theorem step_inv (s t : State) (hinv : Inv s) (h : step s = .next t) : Inv t := by
  obtain ⟨hm, hlow, hb, hf, hk⟩ := hinv
  exact ⟨memoryCanonicalIsKept s t hm h, lowMemoryIsNeverWritten s t hm hlow h, pcAndStackStayBounded s t hb h,
    step_faultRecorded s t hf h, keyWaitStaysAtItsInstruction s t hk h⟩

/-- A command that moves between run-states other than Faulted keeps all invariants: no fault is recorded in either. -/
theorem Inv.setRun {s : State} (h : Inv s) (hs : s.runState ≠ .faulted) (r : RunState) (hr : r ≠ .faulted) :
    Inv (s.setRun r) := by
  obtain ⟨hm, hlow, hb, hf, hk⟩ := h
  exact ⟨hm, hlow, hb, iff_of_false hr (hf.not.1 hs), hk⟩

/-- Every interaction keeps all invariants; none of them reads the timers or the latch. -/
theorem interact_inv (e : Interaction) (s t : State) (hinv : Inv s) (h : interact e s = .next t) : Inv t := by
  cases e with
  | step => exact step_inv s t hinv h
  | latchKeys levels =>
    cases h
    exact hinv
  | tick =>
    cases h
    rcases tick_cases s with ⟨-, ht⟩ | ⟨-, ht⟩ <;> rw [ht]
    · exact hinv
    · exact hinv
  | pause =>
    cases h
    rcases pause_cases s with ⟨hr, ht⟩ | ⟨-, ht⟩ <;> rw [ht]
    · exact hinv.setRun (by simp [hr]) _ (by decide)
    · exact hinv
  | resume =>
    cases h
    rcases resume_cases s with ⟨hr, ht⟩ | ⟨-, ht⟩ <;> rw [ht]
    · exact hinv.setRun (by simp [hr]) _ (by decide)
    · exact hinv
  | quit =>
    cases h
    rcases quit_cases s with ⟨hr, ht⟩ | ⟨-, ht⟩ <;> rw [ht]
    · exact hinv.setRun (by rcases hr with hr | hr <;> simp [hr]) _ (by decide)
    · exact hinv

/-- The state built from an accepted image (spec/70_reset_and_hazards.md R260). -/
theorem eq_of_initializeCore {image : List Byte} {s : State} (h : initializeCore image = .ok s) :
    s = State.reset.setMem (Memory.storeBytes [] 0x200 image) := by
  unfold initializeCore at h
  split at h
  · cases h
  · exact (Except.ok.inj h).symm

/-- The state built from an accepted image has all invariants: the image is stored from 0x200 on in empty memory, and
the rest is as at reset. -/
theorem inv_of_initializeCore {image : List Byte} {s : State} (h : initializeCore image = .ok s) : Inv s := by
  have hempty : Memory.wf [] := ⟨List.Pairwise.nil, by simp⟩
  have hbounded : PcAndStackBounded State.reset := ⟨by decide, by decide, by simp [State.reset]⟩
  have hfault : FaultRecorded State.reset := iff_of_false (by decide) (by decide)
  rw [eq_of_initializeCore h]
  exact ⟨Memory.storeBytes_wf image [] 0x200 hempty,
    fun a ha => Memory.read_storeBytes_below image [] 0x200 a hempty ha, hbounded, hfault,
    keyWaitAtWait_of_not_waiting rfl⟩

/-! ### Done (R249) -/

theorem done_iff (s : State) : done s = true ↔
    s.runState = .running ∧ s.faultRec = none ∧ ∃ w, s.fetch = .ok w ∧ decodeWord w = .ok (.jp s.pc) := by
  unfold done
  cases s.fetch with
  | ok w => simp [and_assoc]
  | error f => simp

/-- The jump to itself takes the advance back. -/
theorem step_of_done (s : State) (h : done s = true) : step s = .next s := by
  obtain ⟨hr, -, w, hw, hd⟩ := (done_iff s).1 h
  rw [step_of_fetch s hr w hw, hd]
  rfl

/-- Being done does not depend on the timers. -/
theorem done_tick (s : State) : done (tick s) = done s := by
  rcases tick_cases s with ⟨-, h⟩ | ⟨-, h⟩
  · rw [h]
    rfl
  · rw [h]

end Sys2Proof.Machine
end

section
/-! PROOFS. The statements of spec/60_exceptions.md. -/

open Sys2Proof Sys2Proof.Machine

/-- Settles O53: each interaction keeps the invariants, and the state built from an image has them. -/
theorem everyScheduleKeepsInvariants : Obligations.EveryScheduleKeepsInvariants := by
  unfold Obligations.EveryScheduleKeepsInvariants
  refine ⟨interact_inv, fun image es s h => interactAll_keeps Inv es (fun e _ s hs => ?_) s (inv_of_initializeCore h)⟩
  obtain ⟨t, ht⟩ := interact_completes e s
  exact ⟨t, ht, interact_inv e s t hs ht⟩

/-- Settles O43: a step that faults does so at its fetch or by a cause of the decoded instruction. -/
theorem onlyListedInstructionsFault : Obligations.OnlyListedInstructionsFault := by
  unfold Obligations.OnlyListedInstructionsFault
  intro s t hr h
  rcases step_of_running_cases s t hr h with hkept | ⟨o, ⟨cause, info⟩, hfault, rfl⟩
  · exact .inl hkept
  · refine .inr ⟨rfl, ?_⟩
    rw [State.raise_faultRec, Option.map_some]
    cases hfault with
    | fetch habove => exact .inl ⟨habove, rfl⟩
    | exec _ i _ hd hcan => exact .inr ⟨i, cause, hd, rfl, hcan⟩

/-- Settles O44: the faulting step is the taking of its fault, and Faulted is terminal. -/
theorem faultsArePreciseAndTerminal : Obligations.FaultsArePreciseAndTerminal := by
  unfold Obligations.FaultsArePreciseAndTerminal
  intro s t hr h hstopped
  rcases step_of_running_cases s t hr h with ⟨hrun, -⟩ | ⟨o, f, hfault, rfl⟩
  · exact absurd hrun hstopped
  · refine ⟨⟨f.cause, f.info, by rw [hfault.opcode_eq]; rfl⟩, fun es => ?_⟩
    obtain ⟨levels, hall⟩ := interactAll_of_terminal es (s.raise o f) (.inr rfl)
    exact ⟨_, hall, rfl, rfl⟩

/-- Settles O45: the two cases of each command, and what a step can do. -/
theorem runStateTransitions : Obligations.RunStateTransitions := by
  unfold Obligations.RunStateTransitions
  refine ⟨fun image s h => by rw [eq_of_initializeCore h]; rfl, fun e s => ?_⟩
  obtain ⟨t, h⟩ := interact_completes e s
  refine ⟨t, h, ?_⟩
  cases e with
  | step =>
    by_cases hr : s.runState = .running
    · rw [hr]
      rcases step_of_running_cases s t hr h with ⟨hrun, -⟩ | ⟨o, f, -, rfl⟩
      · exact .inl hrun
      · exact .inr rfl
    · cases (step_of_not_running s hr).symm.trans h
      cases hs : s.runState with
      | running => exact absurd hs hr
      | _ => rfl
  | latchKeys levels =>
    cases h
    cases hs : s.runState <;> exact hs
  | tick =>
    cases h
    have hkept : (tick s).runState = s.runState := tick_frame s .runState (by decide)
    cases hs : s.runState <;> exact hkept.trans hs
  | pause =>
    cases h
    rcases pause_cases s with ⟨hr, ht⟩ | ⟨hr, ht⟩
    · rw [hr, ht]
      exact ⟨rfl, s.setRun_frame _⟩
    · rw [ht]
      cases hs : s.runState with
      | running => exact absurd hs hr
      | _ => rfl
  | resume =>
    cases h
    rcases resume_cases s with ⟨hr, ht⟩ | ⟨hr, ht⟩
    · rw [hr, ht]
      exact ⟨rfl, s.setRun_frame _⟩
    · rw [ht]
      cases hs : s.runState with
      | paused => exact absurd hs hr
      | _ => rfl
  | quit =>
    cases h
    rcases quit_cases s with ⟨hr | hr, ht⟩ | ⟨hr | hr, ht⟩ <;> rw [hr, ht]
    · exact ⟨rfl, s.setRun_frame _⟩
    · exact ⟨rfl, s.setRun_frame _⟩
    · exact hr
    · exact hr

/-- Settles O46: only latch writes are left. -/
theorem terminalStatesAreFrozen : Obligations.TerminalStatesAreFrozen := by
  unfold Obligations.TerminalStatesAreFrozen
  intro s es h
  obtain ⟨levels, hall⟩ := interactAll_of_terminal es s h
  exact ⟨_, hall, s.setKeys_frame levels⟩

/-- Settles O55: the two cases of the tick. -/
theorem tickCountsDownWhenRunning : Obligations.TickCountsDownWhenRunning := by
  unfold Obligations.TickCountsDownWhenRunning
  intro s
  rcases tick_cases s with ⟨hr, ht⟩ | ⟨hr, ht⟩
  · refine ⟨fun _ => ⟨?_, ?_, tick_frame s⟩, fun hno => absurd hr hno⟩
    · rw [ht]
      exact toNat_countDown s.dt
    · rw [ht]
      exact toNat_countDown s.st
  · exact ⟨fun hr' => absurd hr' hr, fun _ => ht⟩

/-- Settles O58: a step from a done state changes nothing, and a tick keeps it done. -/
theorem doneStateOnlyTicks : Obligations.DoneStateOnlyTicks := by
  unfold Obligations.DoneStateOnlyTicks
  intro s hdone
  refine ⟨step_of_done s hdone, fun es hes => interactAll_keeps (fun t => done t = true ∧ ChangesOnly [.dt, .st] s t) es
    (fun e he t ⟨hd, hframe⟩ => ?_) s ⟨hdone, fun p _ => p.same_refl s⟩⟩
  rcases hes e he with rfl | rfl
  · exact ⟨t, step_of_done t hd, hd, hframe⟩
  · exact ⟨tick t, rfl, (done_tick t).trans hd, hframe.trans _ _ _ _ (tick_frame t)⟩

/-- Settles O4: the first case of the step, for the state and for the event. -/
theorem stepOnlyWhenRunning : Obligations.StepOnlyWhenRunning := by
  unfold Obligations.StepOnlyWhenRunning
  exact fun s h => ⟨step_of_not_running s h, stepDiag_of_not_running s h⟩

/-- Settles O56: the latch write is one update; tone compares the sound timer with 0. -/
theorem latchAndStatusPorts : Obligations.LatchAndStatusPorts := by
  unfold Obligations.LatchAndStatusPorts
  intro s levels
  refine ⟨rfl, s.setKeys_frame levels, rfl, rfl, rfl, ?_⟩
  simp [status, tone, BitVec.toNat_eq]

end

section
/-! PROOFS. What initialize builds from an image, and schedules put one after the other. -/

namespace Sys2Proof.Machine

/-! ### Initialize (spec/70_reset_and_hazards.md R260, R261) -/

/-- An image that fits is accepted. -/
theorem initializeCore_of_fits {image : List Byte} (h : image.length ≤ Config.progMax) :
    initializeCore image = .ok (State.reset.setMem (Memory.storeBytes State.reset.mem Config.progBase image)) :=
  if_neg (Nat.not_lt.2 h)

theorem initializeCore_of_too_large {image : List Byte} (h : Config.progMax < image.length) :
    initializeCore image = .error .programTooLarge :=
  if_pos h

/-- Memory with an image that fits: the font and the zero area below 0x200, the image from there, zero after it. -/
theorem Memory.read_image (image : List Byte) (h : image.length ≤ 3584) (a : Nat) :
    Memory.read (Memory.storeBytes [] 0x200 image) a =
      if a < 80 then font.getD a 0 else if a < 0x200 then 0 else image.getD (a - 0x200) 0 := by
  have hempty : Memory.wf [] := ⟨List.Pairwise.nil, by simp⟩
  have hinit : Memory.read [] a = if a < 80 then font.getD a 0 else 0 := rfl
  by_cases hlow : a < 0x200
  · rw [Memory.read_storeBytes_below image [] 0x200 a hempty hlow, hinit, if_pos hlow]
  · have hfont : ¬ a < 80 := by omega
    have hfits : 0x200 + image.length ≤ Config.memSize := by simp only [Config.memSize]; omega
    rw [Memory.read_storeBytes image [] 0x200 hempty hfits, hinit, if_neg hfont, if_neg hlow, if_neg hfont]
    split
    · exact List.getElem_eq_getD 0
    · exact (List.getD_eq_default _ _ (by omega)).symm

/-! ### Schedules (R244) -/

/-- The next schedule starts where the one before it ended. -/
theorem interactAll_append (es fs : List Interaction) (s u : State) (h : interactAll es s = .next u) :
    interactAll (es ++ fs) s = interactAll fs u := by
  induction es generalizing s with
  | nil =>
    cases h
    rfl
  | cons e rest ih =>
    obtain ⟨t, ht⟩ := interact_completes e s
    rw [interactAll, ht] at h
    rw [List.cons_append, interactAll, ht]
    exact ih t h

/-- Every schedule completes. -/
theorem interactAll_completes (es : List Interaction) (s : State) : ∃ t, interactAll es s = .next t := by
  obtain ⟨t, ht, -⟩ := interactAll_keeps (fun _ => True) es
    (fun e _ s _ => (interact_completes e s).imp fun _ h => ⟨h, trivial⟩) s trivial
  exact ⟨t, ht⟩

/-- The end of a frame: one tick, then the quit check (R270). -/
theorem interactAll_tick_quit (q : Bool) (s : State) :
    interactAll (.tick :: if q then [.quit] else []) s = .next (if q then quit (tick s) else tick s) := by
  cases q <;> rfl

end Sys2Proof.Machine
end

section
/-! PROOFS. The statements of spec/70_reset_and_hazards.md. -/

open Sys2Proof Sys2Proof.Machine

/-- Settles O54: the size check of initialize, and the reset state with the image in memory. -/
theorem initializeBuildsTheResetState : Obligations.InitializeBuildsTheResetState := by
  unfold Obligations.InitializeBuildsTheResetState
  refine fun image => ⟨fun hfits => ?_, initializeCore_of_too_large⟩
  refine ⟨_, initializeCore_of_fits hfits, ?_, rfl, rfl, rfl, rfl, rfl, rfl, rfl, rfl, ?_, Display.pixel_blank,
    fun a _ => Memory.read_image image hfits a⟩
  · intro r
    simp [State.getV, State.reset, State.setMem]
  · intro k
    simp [State.reset, State.setMem]

/-- Settles O57: the schedule of a frame, cut after the latch write and the steps. -/
theorem frameRunsStepsThenOneTick : Obligations.FrameRunsStepsThenOneTick := by
  unfold Obligations.FrameRunsStepsThenOneTick
  intro s levels ipf q
  obtain ⟨u, hsteps⟩ := interactAll_completes (List.replicate ipf .step) (latchKeys levels s)
  have hframe : frame ipf levels q s = .next (if q then quit (tick u) else tick u) :=
    calc frame ipf levels q s
      _ = interactAll (List.replicate ipf .step ++ .tick :: if q then [.quit] else []) (latchKeys levels s) := rfl
      _ = interactAll (.tick :: if q then [.quit] else []) u := interactAll_append _ _ _ _ hsteps
      _ = .next (if q then quit (tick u) else tick u) := interactAll_tick_quit q u
  exact ⟨u, hsteps, hframe, fun hr => ((tick_cases u).resolve_left fun hc => hr hc.1).2⟩

/-- Settles O52: reset is what initialize builds from the empty image. -/
theorem initializeEstablishesInvariants : Obligations.InitializeEstablishesInvariants := by
  unfold Obligations.InitializeEstablishesInvariants
  exact ⟨inv_of_initializeCore (image := []) rfl, fun _ _ h => inv_of_initializeCore h⟩

end

section
/-! PROOFS. The random byte of spec/41_register_alu.md section 6. -/

namespace Sys2Proof.Machine

/-- CXNN writes V[x] from one fresh byte, counts the draw, advances, and keeps the rest (R151). -/
theorem exec_rnd_writes (s : State) (x : Reg) (nn : Byte) :
    ∃ t, exec (.rnd x nn) s = .next t ∧ t.getV x = Config.freeByte s.rndDraws &&& nn ∧
      t.rndDraws = s.rndDraws + 1 ∧ t.pc = s.pc + 2 ∧ ChangesOnly [.pc, .v x, .rndDraws] s t :=
  ⟨_, rfl, by simp, rfl, rfl, (s.advance_frame.seq (State.setV_frame _ x _)).seq (State.countDraw_frame _)⟩

end Sys2Proof.Machine
end

section
/-! PROOFS. The statement about the random byte. -/

open Sys2Proof Sys2Proof.Machine

/-- Settles O25: a bit outside NN is 0 in the conjunction, whatever the free byte is. -/
theorem randomByteIsMasked : Obligations.RandomByteIsMasked := by
  unfold Obligations.RandomByteIsMasked
  intro s x nn
  obtain ⟨t, hnext, hx, hdraws, hpc, hframe⟩ := exec_rnd_writes s x nn
  refine ⟨t, hnext, hx, fun k hk => ?_, hdraws, hpc, hframe⟩
  rw [hx, BitVec.getLsbD_and, hk, Bool.and_false]

end
